-- ==== Sys2Proof/Word.lean ====
section
/-! DEFINITION. The word types of nanoMIPS SC/SCE/SCWP/SCWPE (spec/00_scope.md R10, R11, R13; spec/20_memory.md R50). -/

namespace Sys2Proof

/-- A general register, a virtual address or the program counter: `XLEN = 32` bits (R10; log 10). -/
abbrev Word := BitVec 32

/-- A 32-bit instruction word, bit 31 the most significant (R13, R80; log 37). -/
abbrev InstrWord := BitVec 32

/-- A byte of memory: 8 bits (R50; log 41). -/
abbrev Byte := BitVec 8

/-- A general register's number, 0 to 31 (R20, R87). -/
abbrev Reg := Fin 32

/-- A cacheability and coherency attribute: a 3-bit value (R11; log 41). -/
abbrev Cca := BitVec 3

/-! A physical byte address is a natural number below `2 ^ paBits`, `paBits` a parameter of the configuration
(R11; log 13). -/

end Sys2Proof
end

