-- ==== Sys2Proof/Syntax.lean ====
section
/-! DEFINITION. The four instructions in scope (spec/00_scope.md R1, spec/30_encoding.md R81 to R84) and the names of
their kinds (spec/40_store_conditional.md R100, spec/10_state.md R32). -/

namespace Sys2Proof

/-- The instructions, operands in the order of the assembler forms (R93). `offset` is the 9-bit value `s` of R86; the pair
forms hold no `x` bits, every value of which is the same instruction (R88). -/
inductive Instr where
  | sc (rt : Reg) (offset : BitVec 9) (rs : Reg)
  | sce (rt : Reg) (offset : BitVec 9) (rs : Reg)
  | scwp (rt ru rs : Reg)
  | scwpe (rt ru rs : Reg)
deriving DecidableEq, Repr

/-- The `kind` argument of `StoreConditional` (R100). -/
inductive ScKind where
  | sc
  | sce
  | scwp
  | scwpe
deriving DecidableEq, Repr

/-- The `kind` field of the link record: which load-linked instruction made it (R32). -/
inductive LinkKind where
  | ll
  | lle
  | llwp
  | llwpe
deriving DecidableEq, Repr

end Sys2Proof
end

