-- ==== Sys2Proof/WellFormed.lean ====
section
/-! DEFINITION. Which instructions the encoding can express (spec/30_encoding.md R86, R87, R94). -/

namespace Sys2Proof

/-- An offset the encoding holds: its two low bits are zero, so it is a multiple of 4 from -256 to 252 (R86, R94). -/
def offsetEncodable (offset : BitVec 9) : Bool := offset.extractLsb' 0 2 == 0#2

/-- A well-formed instruction. Register numbers are unrestricted (R87) and the pair forms have no offset. -/
def Instr.wf : Instr → Bool
  | .sc _ offset _ => offsetEncodable offset
  | .sce _ offset _ => offsetEncodable offset
  | .scwp _ _ _ => true
  | .scwpe _ _ _ => true

end Sys2Proof
end

