-- ==== Sys2Proof/Decode.lean ====
section
/-! DEFINITION. Decoding (spec/30_encoding.md R80 to R91), the decode assignments `nbytes` and `is_eva` (R81 to R84), the
encoder written from the same tables, and the assembler form (R93). The source does not give the layout of an instruction
in memory (R97), so the decoder reads a 32-bit word, which the program text holds whole (R96). -/

namespace Sys2Proof

/-- The decode assignment `nbytes` (R81 to R84). -/
def ScKind.nbytes : ScKind → Nat
  | .sc => 4
  | .sce => 4
  | .scwp => 8
  | .scwpe => 8

/-- The decode assignment `is_eva` (R81 to R84). -/
def ScKind.isEva : ScKind → Bool
  | .sc => false
  | .sce => true
  | .scwp => false
  | .scwpe => true

/-- The kind of an instruction (R100). -/
def Instr.kind : Instr → ScKind
  | .sc _ _ _ => .sc
  | .sce _ _ _ => .sce
  | .scwp _ _ _ => .scwp
  | .scwpe _ _ _ => .scwpe

/-- The literal bits of a format under the common mask (R81 to R84). -/
def ScKind.matchWord : ScKind → InstrWord
  | .sc => 0xA4005900#32
  | .sce => 0xA4005A00#32
  | .scwp => 0xA4005901#32
  | .scwpe => 0xA4005A01#32

/-- The mask of the literal bits, the same for the four formats (R81 to R84, R89). -/
def opcodeMask : InstrWord := 0xFC007F03#32

/-- The two bits marked `x` in the pair formats: 15 and 2 (R88). -/
def xMask : InstrWord := 0x00008004#32

/-- Field `rt`, bits 25:21 (R87). -/
def fieldRt (w : InstrWord) : Reg := (w.extractLsb' 21 5).toFin

/-- Field `rs`, bits 20:16 (R87). -/
def fieldRs (w : InstrWord) : Reg := (w.extractLsb' 16 5).toFin

/-- Field `ru` of the pair formats, bits 7:3 (R87). -/
def fieldRu (w : InstrWord) : Reg := (w.extractLsb' 3 5).toFin

/-- The 9-bit value `s`: `s[8]` is bit 15, `s[7:2]` is bits 7:2, `s[1:0]` is zero (R86). -/
def fieldOffset (w : InstrWord) : BitVec 9 := w.extractLsb' 15 1 ++ w.extractLsb' 2 6 ++ 0#2

/-- Why a word is not decoded. -/
inductive Undecoded where
  /-- The word matches none of the four patterns, so the spec says nothing of it (R90; log 22). -/
  | notDescribed
  /-- A pair word with a nonzero `x` bit under the option `StrictX` (R88; log 21). -/
  | nonzeroX
deriving DecidableEq, Repr

/-- Decode a pair word: under `strictX` its `x` bits must be zero (R88). -/
def decodePair (strictX : Bool) (w : InstrWord) (i : Instr) : Except Undecoded Instr :=
  if strictX && w &&& xMask != 0#32 then .error .nonzeroX else .ok i

/-- Decoding, total on all words (R89, R90). -/
def decode (strictX : Bool) (w : InstrWord) : Except Undecoded Instr :=
  if w &&& opcodeMask = ScKind.matchWord .sc then .ok (.sc (fieldRt w) (fieldOffset w) (fieldRs w))
  else if w &&& opcodeMask = ScKind.matchWord .sce then .ok (.sce (fieldRt w) (fieldOffset w) (fieldRs w))
  else if w &&& opcodeMask = ScKind.matchWord .scwp then
    decodePair strictX w (.scwp (fieldRt w) (fieldRu w) (fieldRs w))
  else if w &&& opcodeMask = ScKind.matchWord .scwpe then
    decodePair strictX w (.scwpe (fieldRt w) (fieldRu w) (fieldRs w))
  else .error .notDescribed

/-- A register number as the 5 bits of its field (R87). -/
def regBits (r : Reg) : BitVec 5 := BitVec.ofFin r

/-- The word of a word form: the diagrams of R81 and R82, which differ in bits 9:8. -/
def encodeWordForm (rt : Reg) (offset : BitVec 9) (rs : Reg) (addressing : BitVec 2) : InstrWord :=
  0b101001#6 ++ regBits rt ++ regBits rs ++ offset.extractLsb' 8 1 ++ 0b1011#4 ++ 0#1 ++ addressing
    ++ offset.extractLsb' 2 6 ++ 0b00#2

/-- The word of a pair form: the diagrams of R83 and R84, which differ in bits 9:8. The `x` bits are written 0 (R88). -/
def encodePairForm (rt ru rs : Reg) (addressing : BitVec 2) : InstrWord :=
  0b101001#6 ++ regBits rt ++ regBits rs ++ 0#1 ++ 0b1011#4 ++ 0#1 ++ addressing ++ regBits ru ++ 0#1 ++ 0b01#2

/-- The word of an instruction (R81 to R84). -/
def encode : Instr → InstrWord
  | .sc rt offset rs => encodeWordForm rt offset rs 0b01#2
  | .sce rt offset rs => encodeWordForm rt offset rs 0b10#2
  | .scwp rt ru rs => encodePairForm rt ru rs 0b01#2
  | .scwpe rt ru rs => encodePairForm rt ru rs 0b10#2

/-- What the decoder reads from an instruction whose bits are `w`, bit 0 the least significant bit of the 32-bit word; bits
from `nbits` up are zero. The `x` bits are ignored, the decision of R88. -/
def decodeTableWord (nbits w : Nat) : Option Instr :=
  match decode false (BitVec.ofNat 32 (w % 2 ^ nbits)) with
  | .ok i => some i
  | .error _ => none

/-- A register as the assembler writes it by number (R22). -/
def regText (r : Reg) : String := "$" ++ toString r.val

/-- The assembler form, mnemonic in lower case as in the source's example and the offset in decimal (R93; log 44). -/
def Instr.asm : Instr → String
  | .sc rt offset rs => "sc " ++ regText rt ++ ", " ++ toString offset.toInt ++ "(" ++ regText rs ++ ")"
  | .sce rt offset rs => "sce " ++ regText rt ++ ", " ++ toString offset.toInt ++ "(" ++ regText rs ++ ")"
  | .scwp rt ru rs => "scwp " ++ regText rt ++ ", " ++ regText ru ++ ", (" ++ regText rs ++ ")"
  | .scwpe rt ru rs => "scwpe " ++ regText rt ++ ", " ++ regText ru ++ ", (" ++ regText rs ++ ")"

end Sys2Proof
end

