-- ==== Sys2Proof/Config.lean ====
section
/-! DEFINITION. The implementation parameters of spec/00_scope.md R4 to R12, spec/30_encoding.md R88,
spec/41_llsc_sequence.md R135 and spec/70_reset_and_hazards.md R198, as plain data, and the free value of R18.
A `Config` is held in `State`, so that a claim over all states is a claim over all configurations (log 2). A platform
function of R12 is a finite list read by Machine/Platform.lean: every function on the machine's finite address spaces is
such a list (log 12, log 14, log 15), but for `Cop0Usable`, which takes the whole state: a rule of the mode, or an oracle
(log 16). -/

namespace Sys2Proof

/-- The processor modes the source names (R26, R179; log 45). -/
inductive Mode where
  | kernel
  | user
deriving DecidableEq, Repr

/-- The exceptions translation can raise (R62, R164 to R167). -/
inductive TransExc where
  | addressError
  | tlbRefill
  | tlbInvalid
  | tlbModified
deriving DecidableEq, Repr

/-- What translation of one virtual address gives (R62). -/
inductive Translated where
  | mapped (pa : Nat) (cca : Cca)
  | raises (e : TransExc)
deriving DecidableEq, Repr

/-- One entry of the translation parameter: virtual addresses `first` to `last` of one mode's view, both included. A mapped
entry sends `first` to `pa` and the addresses after it to those after `pa` (R62, R63; log 12). -/
structure MapEntry where
  view   : Mode
  first  : Word
  last   : Word
  target : Translated
deriving DecidableEq, Repr

/-- Physical addresses `first` to `last`, both included, under any attribute of `ccas` (R12; log 15). -/
structure PhysWindow where
  first : Nat
  last  : Nat
  ccas  : List Cca
deriving DecidableEq, Repr

/-- A window of `BusError`: physical addresses, attributes and access sizes in bytes (R12, R168; log 15). -/
structure BusWindow where
  window : PhysWindow
  sizes  : List Nat
deriving DecidableEq, Repr

/-- A window of `WatchMatch`: virtual addresses `first` to `last`, both included, and access sizes in bytes
(R12, R169; log 15). -/
structure WatchWindow where
  first : Word
  last  : Word
  sizes : List Nat
deriving DecidableEq, Repr

/-- The kinds of cacheability attribute (R64). -/
inductive CcaKind where
  | uncached
  | uncachedAccelerated
  | cachedNoncoherent
  | cachedCoherent
deriving DecidableEq, Repr

/-- Physical addresses `first` to `last`, both included (R8; log 31). -/
structure PhysRange where
  first : Nat
  last  : Nat
deriving DecidableEq, Repr

/-- An entry of `BlockOf`: data linked at a physical address from `first` to `last` have the block made of `pieces`
(R8; log 31). -/
structure BlockEntry where
  first  : Nat
  last   : Nat
  pieces : List PhysRange
deriving DecidableEq, Repr

/-- How `Cop0Usable(state)` is given: "a field of its configuration or as an oracle" (R12, R163; log 16). -/
inductive Cop0Rule where
  /-- A condition on the mode: usable in kernel mode, usable in user mode. -/
  | byMode (kernel user : Bool)
  /-- The `n`-th oracle: a predicate of the whole state that nothing constrains, `Config.cop0Oracle` in
  Machine/Platform.lean. -/
  | oracle (n : Nat)
deriving DecidableEq, Repr

/-- The parameters of one implementation and platform. No instruction changes one (R4 to R12). -/
structure Config where
  /-- `C0.Config.BE`: true is big-endian (R7, R27, R51). -/
  be : Bool
  /-- `C0.Config5.XNP`: true means paired words are NOT supported (R4, R28). -/
  xnp : Bool
  /-- `C0.Config5.EVA`: true means the EVA forms are implemented (R5, R29). -/
  eva : Bool
  /-- `C0.Config5.ULS`: true means uncached sequences are supported (R6, R30). -/
  uls : Bool
  /-- An NMS core, for which paired words are optional (R9). -/
  nms : Bool
  /-- `BlockOf` (R8): the first entry that holds the linked address gives its block; an address in none has the block of
  `blockSize` and `blockShift` (log 31). -/
  blocks : List BlockEntry
  /-- Size in bytes of the blocks of no entry (R8; log 31). -/
  blockSize : Nat
  /-- Where the blocks of no entry begin: at addresses `a` with `a + blockShift` a multiple of `blockSize` (R8; log 31). -/
  blockShift : Nat
  /-- The minimum page size, which bounds the block (R8). -/
  minPageSize : Nat
  /-- `PABITS`, the width of a physical address (R11; log 13). -/
  paBits : Nat
  /-- `Translate` (R12, R62): the first entry that holds the address decides; an address in none is mapped to itself with
  attribute 3 (log 12). -/
  translation : List MapEntry
  /-- Where `Synchronizable` is false (R12, R138; log 15). -/
  unsynchronizable : List PhysWindow
  /-- Which of the uncached attributes 2 and 7 are UCA (R11, R64; log 14). -/
  accelerated : List Cca
  /-- Which of the other attributes are cached coherent (R64; log 14). -/
  coherent : List Cca
  /-- A multi-processor system, or one with coherent I/O devices (R12, R139). -/
  multiprocessor : Bool
  /-- Where `WatchMatch` is true (R12, R169; log 15). -/
  watch : List WatchWindow
  /-- Where `BusError` is true (R12, R168; log 15). -/
  busError : List BusWindow
  /-- `Cop0Usable` (R12, R163; log 16). -/
  cop0 : Cop0Rule
  /-- `StrictX`: a pair word with a nonzero `x` bit is refused (R88; log 21). -/
  strictX : Bool
  /-- `AssumeProgress` (R135; log 28). -/
  assumeProgress : Bool
  /-- `EndPc` (R198; log 38). -/
  endPc : Word
deriving DecidableEq, Repr

/-- The configuration of `State.reset`: the defaults of spec/95_test_vectors.md and spec/92_eei_decisions.md, and, where the
spec gives none (NMS, the block, the page size, PABITS, UCA, EndPc), values of the model (DESIGN CHOICE, unsafe: log 3). -/
def Config.default : Config where
  be := false
  xnp := false
  eva := true
  uls := false
  nms := false
  blocks := []
  blockSize := 8
  blockShift := 0
  minPageSize := 8
  paBits := 32
  translation := []
  unsynchronizable := []
  accelerated := []
  coherent := []
  multiprocessor := false
  watch := []
  busError := []
  cop0 := .byMode true false
  strictX := false
  assumeProgress := false
  endPc := 0xFFFFFFFE#32

/-- The constraints the source puts on single parameters: a core that is not NMS supports paired words (R9), and the size of
the blocks of no entry is at least one word and at most the minimum page size (R8). What R8 demands of every block is
`Safety.BlocksWf`. Those on `CcaKind` hold by construction (R64). -/
def Config.wf (c : Config) : Bool :=
  (c.nms || !c.xnp) && decide (4 ≤ c.blockSize) && decide (c.blockSize ≤ c.minPageSize)

/-- THE FREE VALUE (R18; log 24): the environment's `n`-th draw from the set of 0 and 1, under no law. It has no body, so a
claim that mentions it holds for every value it could have. -/
opaque Config.draw : Nat → Bool

end Sys2Proof
end

