-- ==== Sys2Proof/Machine/State.lean ====
section
/-! DEFINITION. The machine's state as plain data (spec/10_state.md), the exceptions, faults and refusals
(spec/60_exceptions.md), the events of other agents and of instructions the spec does not describe
(spec/41_llsc_sequence.md), and the state after reset (spec/10_state.md R39). -/

namespace Sys2Proof.Machine

/-- The exceptions an instruction in scope can raise, with the value each records (R160, R172; log 46). -/
inductive Exception where
  /-- R161, R162. -/
  | reservedInstruction
  /-- R163. -/
  | coprocessorUnusable (unit : Nat)
  /-- R164. -/
  | addressErrorStore (badva : Word)
  /-- R165. -/
  | tlbRefill (badva : Word)
  /-- R166. -/
  | tlbInvalid (badva : Word)
  /-- R167. -/
  | tlbModified (badva : Word)
  /-- R169. -/
  | watch
  /-- R168. -/
  | busError
deriving DecidableEq, Repr

/-- Why the machine stops with a fault. `pc` is the address of the faulting instruction (R176). -/
inductive Fault where
  /-- The instruction at `pc` raised `x`. Raised by `raise` in Machine/Ops.lean, for every exception of R160. No entry
  mechanism is described, so the run ends here (R175; log 1). Safe. -/
  | raised (x : Exception) (pc : Word)
  /-- No instruction at `pc` and no end of the run there (R96, R198; log 38). Raised by `instructionStep`. Safe. -/
  | stuck (pc : Word)
  /-- `pc` is odd, for which nothing is defined (R57; log 11). Raised by `instructionStep`. Safe. -/
  | oddPc (pc : Word)
  /-- An access of `nbytes` bytes at `pa` reaches beyond the `2 ^ paBits` physical addresses there are (R11; log 13).
  Raised by `scTarget` and by the events of the schedule. Safe. -/
  | noSuchPhysicalAddress (pa : Nat) (nbytes : Nat)
deriving DecidableEq, Repr

/-- Why the machine gives a step no meaning. -/
inductive Refusal where
  /-- An instruction with no meaning yet. No arm of `exec` answers it now. Safe. -/
  | notModelled (mnemonic : String)
  /-- The word at the pc matches none of the four patterns, so the spec says nothing of it (R90; log 22). Raised by
  `instructionStep`. Safe. -/
  | notDescribed (word : InstrWord)
  /-- A pair word with a nonzero `x` bit under the option `StrictX` (R88; log 21). Raised by `instructionStep`. Safe. -/
  | nonzeroX (word : InstrWord)
  /-- The source's `raise UNPREDICTABLE`: an uncached attribute with `ULS = 0` (R65, R170; log 23). Raised by `scTarget`.
  Safe. -/
  | unpredictable (pc : Word)
  /-- The run has ended normally: `pc` is `EndPc` (R198; log 38). Raised by `instructionStep`. Safe. -/
  | endOfRun
  /-- A PAUSE outside an uncached sequence would enter the paused state, which the spec leaves out (R145, R186; log 43).
  Raised by the schedule's foreign events, by no instruction in scope. Safe. -/
  | pausedState
deriving DecidableEq, Repr

/-- The spec's record of the last load-linked instruction (R32; log 27). -/
structure Link where
  kind   : LinkKind
  va     : Word
  pa     : Nat
  cca    : Cca
  nbytes : Nat
deriving DecidableEq, Repr

/-- Virtual addresses `first` to `last`, both included: what the instructions of a sequence have occupied so far (R132;
log 29). -/
structure Span where
  first : Nat
  last  : Nat
deriving DecidableEq, Repr

/-- A memory access by some agent with attribute `cca`, as far as R123, R129, R131, R141, R144 and R152 tell one from
another. A store lists the bytes it writes. That a store is coherent is a label of the event: the glossary (R19) calls a
coherent store one made with a coherent CCA and defines it no further, and the model ties the label to no attribute
(DESIGN CHOICE, log 47). -/
inductive Access where
  | load (cca : Cca) (addrs : List Nat)
  | coherentStore (cca : Cca) (cells : List Host.Cell)
  | nonCoherentStore (cca : Cca) (cells : List Host.Cell)
deriving DecidableEq, Repr

/-- One step of an agent other than the executing processor (R152). `cacheOp` is a non-local CACHE operation (R133);
`other` is any step that changes nothing here. -/
inductive EnvEvent where
  | access (a : Access)
  | cacheOp
  | other
deriving DecidableEq, Repr

/-- The trace that one instruction executed by this processor and NOT described by the spec leaves on the
load-linked/store-conditional state, exactly as far as the page goes (R2 (g); log 32). -/
inductive ForeignEvent where
  /-- A load or store (R123, R129, R131, R134, R141, R144). -/
  | access (a : Access)
  /-- A load-linked instruction of that kind that completed a read (R151; log 33). -/
  | loadLinked (kind : LinkKind) (va : Word) (pa : Nat) (cca : Cca)
  /-- PREF (R130). -/
  | pref
  /-- CACHE (R133). -/
  | cacheOp
  /-- ERET (R125; log 34). -/
  | eret
  /-- ERETNC (R126). -/
  | eretnc
  /-- PAUSE (R145; log 43). -/
  | pause
  /-- An instruction that raised an exception, whose handler the processor goes on into (R127; log 48). -/
  | exception
  /-- Any other instruction. -/
  | other
deriving DecidableEq, Repr

/-- Who moves next (R152; log 30). -/
inductive Turn where
  /-- The executing processor runs the instruction at its pc. -/
  | processor
  /-- The executing processor has run an instruction the spec does not describe, `len` bytes at `instrVa` (log 32). -/
  | foreign (instrVa : Word) (len : Nat) (e : ForeignEvent)
  /-- Another agent takes a step. -/
  | environment (e : EnvEvent)
deriving DecidableEq, Repr

/-- Physical memory: (address, byte) pairs, addresses strictly rising; an unlisted byte has no value (R36; log 8). -/
abbrev Memory := List Host.Cell

/-- The program text: (virtual address, instruction word) pairs, addresses strictly rising (R96; log 9). -/
abbrev Text := List (Nat × InstrWord)

structure State where
  /-- The parameters of R4 to R12, the four configuration bits of R27 to R30 among them (log 2). -/
  cfg : Config
  /-- `GPR[0]` to `GPR[31]` (R20); number 0 is read and written only through `readReg` and `writeReg` (R21). -/
  gpr : Vector Word 32
  /-- The program counter (R24). -/
  pc : Word
  /-- The processor mode (R26). -/
  mode : Mode
  /-- `C0.LLAddr.LLB` (R31). -/
  llb : Bool
  /-- The link record (R32). -/
  link : Option Link
  /-- `link_broken` (R33). -/
  linkBroken : Bool
  /-- `link_mixed` (R40). -/
  linkMixed : Bool
  /-- `Mem` (R36). -/
  mem : Memory
  /-- `Text` (R96; log 9). -/
  text : Text
  /-- The turns to come; when it is empty the processor runs on alone (R152; log 30). -/
  schedule : List Turn
  /-- THE MODEL'S OWN: how many draws have been taken (R18; log 24). -/
  draws : Nat
  /-- THE MODEL'S OWN: `may_fail_event` of R122 (log 28). -/
  mayFail : Bool
  /-- THE MODEL'S OWN: where the sequence's instructions have lain so far (R132; log 29). -/
  span : Option Span
deriving DecidableEq, Repr

/-- The state that spec/10_state.md counts (R20 to R36, R40) and nothing else: what a predicate "of the state" can see (R12,
R38; log 16). -/
structure ArchState where
  gpr        : Vector Word 32
  pc         : Word
  mode       : Mode
  be         : Bool
  xnp        : Bool
  eva        : Bool
  uls        : Bool
  llb        : Bool
  link       : Option Link
  linkBroken : Bool
  linkMixed  : Bool
  mem        : Memory
deriving DecidableEq, Repr

/-- The part of the machine's state that 10_state counts: what else `State` holds is parameter, schedule or the model's own
(R38; log 16). -/
def State.arch (s : State) : ArchState where
  gpr := s.gpr
  pc := s.pc
  mode := s.mode
  be := s.cfg.be
  xnp := s.cfg.xnp
  eva := s.cfg.eva
  uls := s.cfg.uls
  llb := s.llb
  link := s.link
  linkBroken := s.linkBroken
  linkMixed := s.linkMixed
  mem := s.mem

/-- The machine right after reset. The spec gives no reset value (R39, R190) but for register 0, `link` and its two flags;
every other value is the model's (DESIGN CHOICE, unsafe: logs 3 to 9). -/
def State.reset : State where
  cfg := Config.default
  gpr := Vector.replicate 32 0#32
  pc := 0#32
  mode := .kernel
  llb := false
  link := none
  linkBroken := false
  linkMixed := false
  mem := []
  text := []
  schedule := []
  draws := 0
  mayFail := false
  span := none

end Sys2Proof.Machine
end

