-- ==== Sys2Proof/Machine/Ops.lean ====
section
/-! DEFINITION. The named operations over registers, memory and the program counter (spec/10_state.md R20 to R24,
spec/20_memory.md R50 to R52), and raising an exception (spec/60_exceptions.md R175, R176). -/

namespace Sys2Proof.Machine

/-! Cells: a finite map with natural keys, as a list with strictly rising keys. -/

/-- What is listed at address `a`. -/
def cellsLookup {α : Type} : List (Nat × α) → Nat → Option α
  | [], _ => none
  | (k, v) :: rest, a => if a = k then some v else cellsLookup rest a

/-- List `v` at address `a`, in its place. -/
def cellsInsert {α : Type} : List (Nat × α) → Nat → α → List (Nat × α)
  | [], a, v => [(a, v)]
  | (k, w) :: rest, a, v =>
    if a < k then (a, v) :: (k, w) :: rest
    else if a = k then (a, v) :: rest
    else (k, w) :: cellsInsert rest a v

/-- The canonical form: addresses strictly rising. An unlisted address has no value, so no entry can equal it. -/
def cellsWf {α : Type} : List (Nat × α) → Bool
  | [] => true
  | (k, _) :: rest => rest.all (fun c => decide (k < c.1)) && cellsWf rest

/-- The canonical form of memory (R36; log 8). -/
abbrev Memory.wf (m : Memory) : Bool := cellsWf m

/-- One byte of memory, `none` where nothing has been written. -/
def Memory.read (m : Memory) (a : Nat) : Option Byte := cellsLookup m a

/-- Write bytes at rising addresses. -/
def Memory.writeBytes : Memory → Nat → List Byte → Memory
  | m, _, [] => m
  | m, a, b :: bs => Memory.writeBytes (cellsInsert m a b) (a + 1) bs

/-- Write listed bytes, the later of two for one address last (R152 (a), (b)). -/
def Memory.writeCells : Memory → List Host.Cell → Memory
  | m, [] => m
  | m, (a, b) :: cells => Memory.writeCells (cellsInsert m a b) cells

/-- The bytes of an `n`-byte value, lowest address first: byte `i` is `v[8(n-1-i)+7 : 8(n-1-i)]` when big-endian and
`v[8i+7 : 8i]` when little-endian (R51, R52; log 19). -/
def dataBytes {w : Nat} (be : Bool) (n : Nat) (v : BitVec w) : List Byte :=
  (List.range n).map (fun i => v.extractLsb' (8 * (if be then n - 1 - i else i)) 8)

/-- `MemWrite(pa, n, v)`: all bytes in one event (R52, R59). -/
def memWrite {w : Nat} (be : Bool) (m : Memory) (pa : Nat) (n : Nat) (v : BitVec w) : Memory :=
  Memory.writeBytes m pa (dataBytes be n v)

/-- The value whose bytes, least significant first, are listed. -/
def leValue : List Byte → Nat
  | [] => 0
  | b :: bs => b.toNat + 256 * leValue bs

/-- `n` bytes of memory from `pa` up, if each has a value. -/
def Memory.readBytes (m : Memory) : Nat → Nat → Option (List Byte)
  | _, 0 => some []
  | a, n + 1 =>
    match m.read a, Memory.readBytes m (a + 1) n with
    | some b, some bs => some (b :: bs)
    | _, _ => none

/-- `MemRead(pa, n)`: the value assembled in the byte order of `be` (R52). -/
def memRead (be : Bool) (m : Memory) (pa : Nat) (n : Nat) : Option (BitVec (8 * n)) :=
  (m.readBytes pa n).map (fun bs => BitVec.ofNat (8 * n) (leValue (if be then bs.reverse else bs)))

/-- `x[r]`: register 0 reads as zero (R21; log 20). -/
def State.readReg (s : State) (r : Reg) : Word := if r = 0 then 0#32 else s.gpr[r.val]

/-- `x[r] <- v`: a write to register 0 is discarded (R21; log 20). -/
def State.writeReg (s : State) (r : Reg) (v : Word) : State :=
  { s with gpr := if r = 0 then s.gpr else s.gpr.set r v }

/-- A new memory. -/
def State.withMem (s : State) (m : Memory) : State := { s with mem := m }

/-- `pc <- (pc + 4) mod 2^32` (R24, R110; log 11). -/
def State.advancePc (s : State) : State := { s with pc := s.pc + 4#32 }

/-- Count a draw, if one was taken (R18; log 24). -/
def State.countDraw (s : State) (drawn : Bool) : State := { s with draws := if drawn then s.draws + 1 else s.draws }

/-- The turns after this one (log 30). -/
def State.withSchedule (s : State) (ts : List Turn) : State := { s with schedule := ts }

/-- Physical addresses `pa` to `pa + nbytes - 1` exist (R11; log 13). -/
def physExists (cfg : Config) (pa : Nat) (nbytes : Nat) : Bool := decide (pa + nbytes ≤ 2 ^ cfg.paBits)

/-- Why an instruction ends without a next state. -/
inductive Stop where
  | fault (f : Fault)
  | refused (r : Refusal)
deriving DecidableEq, Repr

/-- The outcome of a stop. -/
def Stop.outcome : Stop → Host.Outcome State Fault Refusal
  | .fault f => .fault f
  | .refused r => .refused r

/-- RAISING AN EXCEPTION. The source describes no entry mechanism: the run ends with the exception, its recorded value and
the address of the faulting instruction, and nothing of the state changes (R101, R175, R176; log 1). A return from an
exception is not described either (R177). -/
def raise (x : Exception) (s : State) : Stop := .fault (.raised x s.pc)

end Sys2Proof.Machine
end

