-- ==== Sys2Proof/Machine/Platform.lean ====
section
/-! DEFINITION. The platform functions of spec/00_scope.md R12, read from the configuration's lists
(spec/20_memory.md R61 to R65, spec/41_llsc_sequence.md R124, R138, R139, spec/60_exceptions.md R163, R168, R169). -/

namespace Sys2Proof

/-- A FREE VALUE (R12, "or as an oracle"; log 16): whether the `n`-th oracle finds coprocessor 0 usable in a state. It has no
body, so a claim over configurations with an oracle holds for every predicate of the state. -/
opaque Config.cop0Oracle (n : Nat) (a : Machine.ArchState) : Bool

end Sys2Proof

namespace Sys2Proof.Machine

/-- Which mode's view of the virtual addresses is translated: an EVA form's "as though the core is in user mode" (R63). -/
def viewOf (isEva : Bool) (mode : Mode) : Mode := if isEva then .user else mode

/-- The translation entry holds the address in that view. -/
def MapEntry.holds (e : MapEntry) (view : Mode) (va : Word) : Bool :=
  decide (e.view = view) && decide (e.first ≤ va) && decide (va ≤ e.last)

/-- What an entry gives for an address it holds. -/
def MapEntry.resultAt (e : MapEntry) (va : Word) : Translated :=
  match e.target with
  | .mapped pa cca => .mapped (pa + (va - e.first).toNat) cca
  | .raises x => .raises x

/-- `Translate(va, 'Store', eva, mode)`; an address in no entry is mapped to itself with attribute 3, the default of R62
(log 12). -/
def translate (cfg : Config) (va : Word) (isEva : Bool) (mode : Mode) : Translated :=
  match cfg.translation.find? (fun e => MapEntry.holds e (viewOf isEva mode) va) with
  | some e => MapEntry.resultAt e va
  | none => .mapped va.toNat 3#3

/-- The exception translation raises, with the address it records (R164 to R167; log 46). -/
def transException (e : TransExc) (va : Word) : Exception :=
  match e with
  | .addressError => .addressErrorStore va
  | .tlbRefill => .tlbRefill va
  | .tlbInvalid => .tlbInvalid va
  | .tlbModified => .tlbModified va

/-- The pseudocode's `cca == 2 or cca == 7`: an uncached attribute (R64). -/
def ccaUncached (cca : Cca) : Bool := cca == 2#3 || cca == 7#3

/-- `CcaKind(cca)`: 2 and 7 are uncached kinds, every other value is a cached kind (R64; log 14). -/
def ccaKind (cfg : Config) (cca : Cca) : CcaKind :=
  if ccaUncached cca then
    if cfg.accelerated.contains cca then .uncachedAccelerated else .uncached
  else
    if cfg.coherent.contains cca then .cachedCoherent else .cachedNoncoherent

/-- `CcaSupportsRMW(cca)` (R139). -/
def ccaSupportsRmw (cfg : Config) (cca : Cca) : Bool :=
  match ccaKind cfg cca with
  | .cachedCoherent => true
  | .cachedNoncoherent => !cfg.multiprocessor
  | .uncached => cfg.uls
  | .uncachedAccelerated => cfg.uls

/-- The window holds the address under that attribute. -/
def PhysWindow.holds (w : PhysWindow) (pa : Nat) (cca : Cca) : Bool :=
  decide (w.first ≤ pa) && decide (pa ≤ w.last) && w.ccas.contains cca

/-- `Synchronizable(pa, cca)` (R138, R142; log 15). -/
def synchronizable (cfg : Config) (pa : Nat) (cca : Cca) : Bool :=
  !cfg.unsynchronizable.any (fun w => PhysWindow.holds w pa cca)

/-- `BusError(pa, cca, nbytes)` (R168; log 15). -/
def busErrorAt (cfg : Config) (pa : Nat) (cca : Cca) (nbytes : Nat) : Bool :=
  cfg.busError.any (fun w => PhysWindow.holds w.window pa cca && w.sizes.contains nbytes)

/-- `WatchMatch(va, nbytes)` (R169; log 15). -/
def watchMatch (cfg : Config) (va : Word) (nbytes : Nat) : Bool :=
  cfg.watch.any (fun w => decide (w.first ≤ va) && decide (va ≤ w.last) && w.sizes.contains nbytes)

/-- `Cop0Usable(state)`, of the whole state (R12, R163, decision D15; log 16). -/
def cop0Usable (s : State) : Bool :=
  match s.cfg.cop0 with
  | .byMode kernel user =>
    match s.mode with
    | .kernel => kernel
    | .user => user
  | .oracle n => Config.cop0Oracle n s.arch

/-- The address is one of the load-linked data's bytes (R124). -/
def inLinkedData (l : Link) (a : Nat) : Bool := decide (l.pa ≤ a) && decide (a < l.pa + l.nbytes)

/-- The range holds the address. -/
def PhysRange.holds (r : PhysRange) (a : Nat) : Bool := decide (r.first ≤ a) && decide (a ≤ r.last)

/-- How many addresses the range holds. -/
def PhysRange.size (r : PhysRange) : Nat := r.last + 1 - r.first

/-- The block of an address in no entry: `blockSize` bytes, beginning `blockShift` below a multiple of it (log 31). -/
def regularBlock (cfg : Config) (pa : Nat) : PhysRange :=
  let start := (pa + cfg.blockShift) / cfg.blockSize * cfg.blockSize
  ⟨start - cfg.blockShift, start + cfg.blockSize - 1 - cfg.blockShift⟩

/-- `BlockOf(pa)`, as ranges of physical addresses (R8; log 31). -/
def blockOf (cfg : Config) (pa : Nat) : List PhysRange :=
  match cfg.blocks.find? (fun e => decide (e.first ≤ pa) && decide (pa ≤ e.last)) with
  | some e => e.pieces
  | none => [regularBlock cfg pa]

/-- The ranges hold at least one address each, and each lies above the one before it. -/
def rangesRise : List PhysRange → Bool
  | [] => true
  | r :: rest => decide (r.first ≤ r.last) && rest.all (fun q => decide (r.last < q.first)) && rangesRise rest

/-- The constraints of R8 on the block of linked data: it contains them, and its size is at least one word and at most the
minimum page size. -/
def blockWf (cfg : Config) (l : Link) : Bool :=
  let block := blockOf cfg l.pa
  let size := (block.map PhysRange.size).sum
  rangesRise block && decide (4 ≤ size) && decide (size ≤ cfg.minPageSize) &&
    (List.range l.nbytes).all (fun j => block.any (fun r => PhysRange.holds r (l.pa + j)))

/-- The address is in `BlockOf(link.pa)`, or is one of the linked data's bytes, which are certainly in the block whatever the
parameter says (R123, R124). Where the block meets R8, the second test adds nothing (log 31). -/
def inBlock (cfg : Config) (l : Link) (a : Nat) : Bool :=
  inLinkedData l a || (blockOf cfg l.pa).any (fun r => PhysRange.holds r a)

end Sys2Proof.Machine
end

