-- ==== Sys2Proof/Machine/Flags.lean ====
section
/-! DEFINITION. No instruction in scope has a condition code (spec/10_state.md R25). The status bits there are: `LLB`
(R31), the link record (R32) with its flags (R33, R40), and the model's own record of may-fail events
(spec/41_llsc_sequence.md R122, R129 to R133; log 28, log 29). -/

namespace Sys2Proof.Machine

/-- The data size of a load-linked kind (R32). -/
def LinkKind.nbytes : LinkKind → Nat
  | .ll => 4
  | .lle => 4
  | .llwp => 8
  | .llwpe => 8

/-- The load-linked kind that a store-conditional completes (R120, R122). -/
def partner : ScKind → LinkKind
  | .sc => .ll
  | .sce => .lle
  | .scwp => .llwp
  | .scwpe => .llwpe

/-- Step 14 of R100: `LLB <- 0; link <- none; link_broken <- false; link_mixed <- false` (R112, R113; log 27). -/
def State.clearLink (s : State) : State :=
  { s with llb := false, link := none, linkBroken := false, linkMixed := false, mayFail := false, span := none }

/-- What a load-linked instruction leaves behind (R151; log 33). -/
def State.setLink (s : State) (l : Link) : State :=
  { s with llb := true, link := some l, linkBroken := false, linkMixed := false, mayFail := false }

/-- Set flags of the link; a flag is never cleared here (R33, R40; log 28). -/
def State.raiseFlags (s : State) (broken mixed mayFail : Bool) : State :=
  { s with
    linkBroken := s.linkBroken || broken
    linkMixed := s.linkMixed || mixed
    mayFail := s.mayFail || mayFail }

/-- `LLB <- b`. -/
def State.withLlb (s : State) (b : Bool) : State := { s with llb := b }

/-- A new span. -/
def State.withSpan (s : State) (sp : Option Span) : State := { s with span := sp }

/-- The span with an instruction of `len` bytes at `va` added (R132). -/
def spanWith (sp : Option Span) (va : Word) (len : Nat) : Span :=
  let first := va.toNat
  let last := va.toNat + (len - 1)
  match sp with
  | none => ⟨first, last⟩
  | some o => ⟨min o.first first, max o.last last⟩

/-- The sequence does not lie in a 2048-byte contiguous region (R132; log 29). -/
def spanTooLong (sp : Span) : Bool := decide (sp.first + 2048 ≤ sp.last)

end Sys2Proof.Machine
end

