-- ==== Sys2Proof/Machine/Env.lean ====
section
/-! DEFINITION. What the steps of other agents, and the instructions the spec does not describe, do to memory and to the
load-linked/store-conditional state (spec/41_llsc_sequence.md R123 to R134, R141, R144, R145, R151, R152). Neither changes
a general register, the pc or the mode; only the foreign events LL and ERET change `LLB`. -/

namespace Sys2Proof.Machine

/-- The attribute an access is made with. -/
def Access.attr : Access → Cca
  | .load cca _ => cca
  | .coherentStore cca _ => cca
  | .nonCoherentStore cca _ => cca

/-- The bytes a store writes; none for a load. -/
def Access.cells : Access → List Host.Cell
  | .load _ _ => []
  | .coherentStore _ cells => cells
  | .nonCoherentStore _ cells => cells

/-- The physical addresses an access touches. -/
def Access.addrs : Access → List Nat
  | .load _ addrs => addrs
  | .coherentStore _ cells => cells.map Prod.fst
  | .nonCoherentStore _ cells => cells.map Prod.fst

/-- The access forces the store-conditional to fail: a coherent store into the block by any agent (R123, R124), or, in an
uncached sequence, an uncached store of this processor that overlaps the linked data (R144; log 35). No load does
(R134), and a non-coherent store otherwise does not (R131). Which stores are coherent is the event's own label, whatever
attribute it carries (DESIGN CHOICE, log 47). -/
def accessBreaks (cfg : Config) (own : Bool) (l : Link) (a : Access) : Bool :=
  match a with
  | .load _ _ => false
  | .coherentStore _ cells => cells.any (fun c => inBlock cfg l c.1)
  | .nonCoherentStore cca cells =>
    own && ccaUncached l.cca && ccaUncached cca && cells.any (fun c => inLinkedData l c.1)

/-- The access makes the result of an uncached sequence unpredictable: any agent's access to the block with another
attribute (R141; log 39). -/
def accessMixes (cfg : Config) (l : Link) (a : Access) : Bool :=
  ccaUncached l.cca && Access.attr a != l.cca && (Access.addrs a).any (fun p => inBlock cfg l p)

/-- The access is an event after which the store-conditional may fail: one of this processor's with a byte outside the
block (R129; one that straddles the block's end counts, DESIGN CHOICE, log 49), or a non-coherent store into the block on a
multi-processor system (R131; log 28), or one by this processor on any system (DESIGN CHOICE, log 50). -/
def accessMayFail (cfg : Config) (own : Bool) (l : Link) (a : Access) : Bool :=
  (own && (Access.addrs a).any (fun p => !inBlock cfg l p)) ||
  (match a with
   | .nonCoherentStore _ cells => (own || cfg.multiprocessor) && cells.any (fun c => inBlock cfg l c.1)
   | .load _ _ => false
   | .coherentStore _ _ => false)

/-- The access done: memory written, and the flags set while a link is held. -/
def applyAccess (own : Bool) (a : Access) (s : State) : State :=
  let s' := s.withMem (Memory.writeCells s.mem (Access.cells a))
  match s.link with
  | none => s'
  | some l => s'.raiseFlags (accessBreaks s.cfg own l a) (accessMixes s.cfg l a) (accessMayFail s.cfg own l a)

/-- An access by this processor (`own`) or by another agent; one outside the physical address space faults (log 13). -/
def accessStep (own : Bool) (a : Access) (s : State) : Host.Outcome State Fault Refusal :=
  match (Access.addrs a).find? (fun p => !physExists s.cfg p 1) with
  | some p => .fault (.noSuchPhysicalAddress p 1)
  | none => .next (applyAccess own a s)

/-- PREF, CACHE or an exception during a sequence: the store-conditional may fail (R130, R133, R127; log 48). -/
def noteMayFail (s : State) : State := s.raiseFlags false false s.link.isSome

/-- One step of another agent (R152; log 30). -/
def environmentStep (e : EnvEvent) (s : State) : Host.Outcome State Fault Refusal :=
  match e with
  | .access a => accessStep false a s
  | .cacheOp => .next (noteMayFail s)
  | .other => .next s

/-- An instruction of this processor joins the sequence it stands in (R132; log 29). -/
def noteInstruction (instrVa : Word) (len : Nat) (s : State) : State :=
  s.withSpan (if s.link.isSome then some (spanWith s.span instrVa len) else s.span)

/-- A load-linked instruction has completed its read (R151; log 33). Its physical address and attribute are those the event
carries: `translate` is the translation of stores, and the model ties the two by no check (R62; DESIGN CHOICE, log 51). A turn of a
pair kind sets the link even when `XNP = 1` and one of an EVA kind even when `EVA = 0`: the model makes no check, and what an
absent load-linked instruction does is not in the spec (R4, 90_conflicts C4; DESIGN CHOICE, log 52). -/
def loadLinkedStep (instrVa : Word) (len : Nat) (l : Link) (s : State) : Host.Outcome State Fault Refusal :=
  if physExists s.cfg l.pa l.nbytes then .next ((s.setLink l).withSpan (some (spanWith none instrVa len)))
  else .fault (.noSuchPhysicalAddress l.pa l.nbytes)

/-- PAUSE does nothing after an uncached load-linked instruction (R145); elsewhere it enters a state the spec leaves out
(R186; log 43). -/
def pauseStep (s : State) : Host.Outcome State Fault Refusal :=
  match s.link with
  | some l => if ccaUncached l.cca then .next s else .refused .pausedState
  | none => .refused .pausedState

/-- The trace of one instruction the spec does not describe (log 32). An exception by itself breaks no link: the ERET that
ends its handler does, and after an ERETNC the result is a draw (R127, 90_conflicts C6; log 48). -/
def foreignStep (instrVa : Word) (len : Nat) (e : ForeignEvent) (s : State) : Host.Outcome State Fault Refusal :=
  match e with
  | .access a => accessStep true a (noteInstruction instrVa len s)
  | .loadLinked kind va pa cca => loadLinkedStep instrVa len ⟨kind, va, pa, cca, LinkKind.nbytes kind⟩ s
  | .pref => .next (noteMayFail (noteInstruction instrVa len s))
  | .cacheOp => .next (noteMayFail (noteInstruction instrVa len s))
  | .eret => .next (((noteInstruction instrVa len s).raiseFlags true false false).withLlb false)
  | .eretnc => .next (noteInstruction instrVa len s)
  | .pause => pauseStep (noteInstruction instrVa len s)
  | .exception => .next (noteMayFail (noteInstruction instrVa len s))
  | .other => .next (noteInstruction instrVa len s)

end Sys2Proof.Machine
end

