-- ==== Sys2Proof/Machine/Operands.lean ====
section
/-! DEFINITION. The operand forms: register plus signed 9-bit offset, register alone, the datum of a word and of a pair, the
alignment test and the result (spec/20_memory.md R53, R55, R58, R72, spec/40_store_conditional.md R111). -/

namespace Sys2Proof.Machine

/-- `va <- (x[rs] + offset) mod 2^32`, the offset sign-extended from 9 bits (R72, R86; log 10). -/
def wordAddress (s : State) (rs : Reg) (offset : BitVec 9) : Word := s.readReg rs + offset.signExtend 32

/-- `va <- x[rs]`: the pair forms have offset 0 (R72, R87). -/
def pairAddress (s : State) (rs : Reg) : Word := s.readReg rs

/-- `va & (nbytes - 1) != 0` (R55). -/
def misaligned (va : Word) (nbytes : Nat) : Bool := va &&& BitVec.ofNat 32 (nbytes - 1) != 0#32

/-- The 32-bit datum of a word form: `x[rt][31:0]` (R58). -/
def wordDatum (s : State) (rt : Reg) : BitVec 32 := s.readReg rt

/-- The 64-bit datum of a pair form: `word0 || word1` when big-endian, `word1 || word0` when little-endian
(R53; log 19). -/
def pairDatum (s : State) (rt ru : Reg) : BitVec (32 + 32) :=
  if s.cfg.be then s.readReg rt ++ s.readReg ru else s.readReg ru ++ s.readReg rt

/-- `zext_1(success)`: the integer 1 or 0 at full width (R100 step 13). -/
def resultWord (success : Bool) : Word := if success then 1#32 else 0#32

end Sys2Proof.Machine
end

