-- ==== Sys2Proof/Machine/Success.lean ====
section
/-! DEFINITION. The success function (spec/41_llsc_sequence.md R122). -/

namespace Sys2Proof.Machine

/-- How the success bit comes about: forced by a rule, or drawn by the environment (R18). -/
inductive Verdict where
  | forced (success : Bool)
  | drawn
deriving DecidableEq, Repr

/-- The link matches the store: partner kind, same virtual address, physical address and attribute (R136, R137). -/
def linkMatches (l : Link) (k : ScKind) (va : Word) (pa : Nat) (cca : Cca) : Bool :=
  decide (l.kind = partner k) && decide (l.va = va) && decide (l.pa = pa) && decide (l.cca = cca)

/-- The negation of R122's `unpredictable_result` (R136 to R139, R141). -/
def predictableResult (s : State) (k : ScKind) (va : Word) (pa : Nat) (cca : Cca) : Bool :=
  match s.link with
  | none => false
  | some l =>
    linkMatches l k va pa cca && synchronizable s.cfg pa cca && ccaSupportsRmw s.cfg cca && !s.linkMixed

/-- R122's `may_fail_event`: an event of R129 to R131 or R133 happened, or the sequence, this instruction included, does not
lie in a 2048-byte region (R132). -/
def mayFailEvent (s : State) : Bool := s.mayFail || spanTooLong (spanWith s.span s.pc 4)

/-- `SCsuccess` up to the value of a draw. The order of the tests is R122's. -/
def scVerdict (s : State) (k : ScKind) (va : Word) (pa : Nat) (cca : Cca) : Verdict :=
  if !predictableResult s k va pa cca then .drawn
  else if !s.llb || s.linkBroken then .forced false
  else if s.cfg.assumeProgress && !mayFailEvent s then .forced true
  else .drawn

/-- A draw is taken. -/
def Verdict.isDraw : Verdict → Bool
  | .forced _ => false
  | .drawn => true

/-- The success bit: a draw is the next of the environment's (R18; log 24). -/
def Verdict.success (v : Verdict) (draws : Nat) : Bool :=
  match v with
  | .forced b => b
  | .drawn => Config.draw draws

end Sys2Proof.Machine
end

