-- ==== Sys2Proof/Machine/StoreConditional.lean ====
section
/-! DEFINITION. The four store-conditional instructions (spec/40_store_conditional.md R100 to R114). -/

namespace Sys2Proof.Machine

/-- Steps 1 to 3 of R100: is the form available here (R161, R162, R163; log 18). -/
def scAvailable (k : ScKind) (s : State) : Except Stop Unit :=
  if k.nbytes == 8 && s.cfg.xnp then .error (raise .reservedInstruction s)
  else if k.isEva && !s.cfg.eva then .error (raise .reservedInstruction s)
  else if k.isEva && !cop0Usable s then .error (raise (.coprocessorUnusable 0) s)
  else .ok ()

/-- Steps 7, 9 and 10 of R100 for a translated address, after the check that the address exists
(R65, R168 to R170; logs 13, 17, 23). -/
def scAccess (k : ScKind) (va : Word) (pa : Nat) (cca : Cca) (s : State) : Except Stop (Nat × Cca) :=
  if !physExists s.cfg pa k.nbytes then .error (.fault (.noSuchPhysicalAddress pa k.nbytes))
  else if ccaUncached cca && !s.cfg.uls then .error (.refused (.unpredictable s.pc))
  else if watchMatch s.cfg va k.nbytes then .error (raise .watch s)
  else if busErrorAt s.cfg pa cca k.nbytes then .error (raise .busError s)
  else .ok (pa, cca)

/-- Every test of R100 that can end the instruction, in its order (R173): the physical address and attribute of the store,
or why there is none. -/
def scTarget (k : ScKind) (va : Word) (s : State) : Except Stop (Nat × Cca) :=
  match scAvailable k s with
  | .error e => .error e
  | .ok _ =>
    if misaligned va k.nbytes then .error (raise (.addressErrorStore va) s)
    else
      match translate s.cfg va k.isEva s.mode with
      | .raises e => .error (raise (transException e va) s)
      | .mapped pa cca => scAccess k va pa cca s

/-- Steps 11 to 15 of R100: decide, write on success, write the result, clear `LLB` and the link, advance
(R109, R110, R112, R113). All register reads came before (R106). -/
def scCommit {w : Nat} (k : ScKind) (rt : Reg) (va : Word) (pa : Nat) (cca : Cca) (datum : BitVec w) (s : State) :
    State :=
  let verdict := scVerdict s k va pa cca
  let success := verdict.success s.draws
  let mem := if success then memWrite s.cfg.be s.mem pa k.nbytes datum else s.mem
  (((((s.withMem mem).writeReg rt (resultWord success)).clearLink).advancePc).countDraw verdict.isDraw)

/-- `StoreConditional` of R100, with its address and datum formed. -/
def storeConditional {w : Nat} (k : ScKind) (rt : Reg) (va : Word) (datum : BitVec w) (s : State) :
    Host.Outcome State Fault Refusal :=
  match scTarget k va s with
  | .error e => e.outcome
  | .ok (pa, cca) => .next (scCommit k rt va pa cca datum s)

/-- SC (R102). -/
def execSc (rt : Reg) (offset : BitVec 9) (rs : Reg) (s : State) : Host.Outcome State Fault Refusal :=
  storeConditional .sc rt (wordAddress s rs offset) (wordDatum s rt) s

/-- SCE (R103). -/
def execSce (rt : Reg) (offset : BitVec 9) (rs : Reg) (s : State) : Host.Outcome State Fault Refusal :=
  storeConditional .sce rt (wordAddress s rs offset) (wordDatum s rt) s

/-- SCWP (R104). -/
def execScwp (rt ru rs : Reg) (s : State) : Host.Outcome State Fault Refusal :=
  storeConditional .scwp rt (pairAddress s rs) (pairDatum s rt ru) s

/-- SCWPE (R105). -/
def execScwpe (rt ru rs : Reg) (s : State) : Host.Outcome State Fault Refusal :=
  storeConditional .scwpe rt (pairAddress s rs) (pairDatum s rt ru) s

end Sys2Proof.Machine
end

