-- ==== Sys2Proof/Machine/Dispatch.lean ====
section
/-! DEFINITION. One arm per instruction, each one call of its meaning. -/

namespace Sys2Proof.Machine

def exec (i : Instr) (s : State) : Host.Outcome State Fault Refusal :=
  match i with
  | .sc rt offset rs => Sys2Proof.Machine.execSc rt offset rs s
  | .sce rt offset rs => Sys2Proof.Machine.execSce rt offset rs s
  | .scwp rt ru rs => Sys2Proof.Machine.execScwp rt ru rs s
  | .scwpe rt ru rs => Sys2Proof.Machine.execScwpe rt ru rs s

end Sys2Proof.Machine
end

