-- ==== Sys2Proof/Machine/Fetch.lean ====
section
/-! DEFINITION. Fetching the instruction at the pc from the program text (spec/30_encoding.md R96, spec/20_memory.md R54,
R57, R69, spec/70_reset_and_hazards.md R198). -/

namespace Sys2Proof.Machine

/-- What stands at the pc. -/
inductive Fetched where
  | word (w : InstrWord)
  | ended
  | stuck
  | oddPc
deriving DecidableEq, Repr

/-- The pc is a multiple of 2 (R57; log 11). -/
def pcEven (pc : Word) : Bool := !pc.getLsbD 0

/-- `Text(pc)`; outside the text the run has ended at `EndPc` and is stuck elsewhere (R96, R198; log 38). -/
def fetch (s : State) : Fetched :=
  if !pcEven s.pc then .oddPc
  else
    match cellsLookup s.text s.pc.toNat with
    | some w => .word w
    | none => if s.pc = s.cfg.endPc then .ended else .stuck

/-- Place one instruction word in the text at the pc, made even, and give the processor the next turn (log 9). -/
def placeWord (s : State) (w : InstrWord) : State :=
  let pc := s.pc &&& 0xFFFFFFFE#32
  { s with pc := pc, text := cellsInsert s.text pc.toNat w, schedule := .processor :: s.schedule }

end Sys2Proof.Machine
end

