-- ==== Sys2Proof/Machine/Run.lean ====
section
/-! DEFINITION. The processor's turn: fetch, decode, execute (spec/00_scope.md R17, spec/30_encoding.md R89, R90, R96). -/

namespace Sys2Proof.Machine

/-- The refusal for a word that does not decode (R88, R90). -/
def undecodedRefusal (u : Undecoded) (w : InstrWord) : Refusal :=
  match u with
  | .notDescribed => .notDescribed w
  | .nonzeroX => .nonzeroX w

/-- Decode and execute one word. -/
def executeWord (w : InstrWord) (s : State) : Host.Outcome State Fault Refusal :=
  match decode s.cfg.strictX w with
  | .ok i => exec i s
  | .error u => .refused (undecodedRefusal u w)

/-- The processor runs the instruction at its pc. -/
def instructionStep (s : State) : Host.Outcome State Fault Refusal :=
  match fetch s with
  | .word w => executeWord w s
  | .ended => .refused .endOfRun
  | .stuck => .fault (.stuck s.pc)
  | .oddPc => .fault (.oddPc s.pc)

end Sys2Proof.Machine
end

