-- ==== Sys2Proof/Machine/Step.lean ====
section
/-! DEFINITION. One step of the machine: the turn that the schedule names (spec/41_llsc_sequence.md R152; log 30). -/

namespace Sys2Proof.Machine

/-- The next turn. With an empty schedule the processor runs on alone. The pc is looked at in the processor's own turn only,
so turns of others that stand in the schedule are taken even where the pc is at `EndPc` or outside the text (DESIGN CHOICE,
log 38). -/
def step (s : State) : Host.Outcome State Fault Refusal :=
  match s.schedule with
  | [] => instructionStep s
  | .processor :: ts => instructionStep (s.withSchedule ts)
  | .foreign instrVa len e :: ts => foreignStep instrVa len e (s.withSchedule ts)
  | .environment e :: ts => environmentStep e (s.withSchedule ts)

/-- `s` with the instruction whose bits are `w` in the program text where the very next step fetches it (log 9). -/
def State.withFetchWord (s : State) (nbits w : Nat) : State := placeWord s (BitVec.ofNat 32 (w % 2 ^ nbits))

end Sys2Proof.Machine
end

