-- ==== Sys2Proof/Safety.lean ====
section
/-! DEFINITION. What claims speak of: launch premises, the conditions a store-conditional meets, a run that has ended, and the
invariants of the machine (spec/70_reset_and_hazards.md R191 to R198, spec/41_llsc_sequence.md R136 to R141). -/

namespace Sys2Proof.Safety

open Sys2Proof.Machine

/-- The tests of steps 1 to 10 of R100 all pass, so that the instruction reaches its success decision: what software
arranges by R192 (b), (d), (e) and (f), and no watch or bus error. -/
structure Reaches (k : ScKind) (s : State) (va : Word) (pa : Nat) (cca : Cca) : Prop where
  pairs   : k.nbytes = 8 → s.cfg.xnp = false
  eva     : k.isEva = true → s.cfg.eva = true
  cop0    : k.isEva = true → cop0Usable s = true
  aligned : va.toNat % k.nbytes = 0
  mapped  : translate s.cfg va k.isEva s.mode = .mapped pa cca
  exists_ : pa + k.nbytes ≤ 2 ^ s.cfg.paBits
  cached  : (cca = 2#3 ∨ cca = 7#3) → s.cfg.uls = true
  noWatch : watchMatch s.cfg va k.nbytes = false
  noBus   : busErrorAt s.cfg pa cca k.nbytes = false

/-- As far as a form of kind `k` asks, coprocessor 0 is as usable in `s'` as in `s`. That is so of every form that is not EVA,
and of all forms wherever `Cop0Usable` is given by the mode and the mode is the same (R163; log 16). -/
def SameCop0 (k : ScKind) (s s' : State) : Prop := k.isEva = true → cop0Usable s' = cop0Usable s

/-- None of the conditions of R136 to R139 and R141 holds: the result is predictable. -/
structure Predictable (k : ScKind) (s : State) (va : Word) (pa : Nat) (cca : Cca) : Prop where
  linked  : ∃ l, s.link = some l ∧ l.kind = partner k ∧ l.va = va ∧ l.pa = pa ∧ l.cca = cca
  tracked : synchronizable s.cfg pa cca = true
  rmw     : ccaSupportsRmw s.cfg cca = true
  unmixed : s.linkMixed = false

/-- "An intact matching link on address `a`" (R191). -/
def IntactLink (k : ScKind) (s : State) (a : Word) : Prop :=
  s.llb = true ∧ s.linkBroken = false ∧ s.linkMixed = false ∧
    ∃ pa cca, translate s.cfg a k.isEva s.mode = .mapped pa cca ∧
      s.link = some ⟨partner k, a, pa, cca, k.nbytes⟩

/-- The register an instruction reads for its (first) datum word and writes with its result (R23). -/
def destOf : Instr → Reg
  | .sc rt _ _ => rt
  | .sce rt _ _ => rt
  | .scwp rt _ _ => rt
  | .scwpe rt _ _ => rt

/-- The instruction uses general register `r`: as base, datum or result (R23). -/
def usesReg (i : Instr) (r : Reg) : Bool :=
  match i with
  | .sc rt _ rs => r == rt || r == rs
  | .sce rt _ rs => r == rt || r == rs
  | .scwp rt ru rs => r == rt || r == ru || r == rs
  | .scwpe rt ru rs => r == rt || r == ru || r == rs

/-- The virtual address an instruction stores to: the expression its meaning uses (R72). -/
def addressOf (i : Instr) (s : State) : Word :=
  match i with
  | .sc _ offset rs => wordAddress s rs offset
  | .sce _ offset rs => wordAddress s rs offset
  | .scwp _ _ rs => pairAddress s rs
  | .scwpe _ _ rs => pairAddress s rs

/-- The bytes an instruction stores on success, lowest address first: the datum its meaning uses, in the byte order of
`be` (R52, R53, R58). -/
def bytesOf (i : Instr) (s : State) : List Byte :=
  match i with
  | .sc rt _ _ => dataBytes s.cfg.be 4 (wordDatum s rt)
  | .sce rt _ _ => dataBytes s.cfg.be 4 (wordDatum s rt)
  | .scwp rt ru _ => dataBytes s.cfg.be 8 (pairDatum s rt ru)
  | .scwpe rt ru _ => dataBytes s.cfg.be 8 (pairDatum s rt ru)

/-- What a store-conditional that completes leaves (R100 steps 11 to 15): `success` is its success bit, `bytes` what it
stores at physical address `pa`. The draw counter alone is left to the statements about the success bit. -/
structure Completed (rt : Reg) (pa : Nat) (bytes : List Byte) (success : Bool) (s t : State) : Prop where
  /-- `x[rt]` is 1 or 0; register 0 stays zero (R21, R100 step 13). -/
  result : t.readReg rt = if rt = 0 then 0#32 else if success then 1#32 else 0#32
  /-- No other general register changes (R23). -/
  others : ∀ r, r ≠ rt → t.readReg r = s.readReg r
  /-- On success every byte of the datum is in memory (R52, R59). -/
  written : success = true → ∀ j, (h : j < bytes.length) → t.mem.read (pa + j) = some bytes[j]
  /-- Every byte of memory outside the stored ones reads as before. -/
  elsewhere : ∀ a, a < pa ∨ pa + bytes.length ≤ a → t.mem.read a = s.mem.read a
  /-- On failure memory is untouched (R109). -/
  kept : success = false → t.mem = s.mem
  /-- `LLB` is 0 and the link record is gone (R112, R113). -/
  llb : t.llb = false
  link : t.link = none
  linkBroken : t.linkBroken = false
  linkMixed : t.linkMixed = false
  mayFail : t.mayFail = false
  span : t.span = none
  /-- The pc has advanced by 4 (R24, R110). -/
  pc : t.pc = s.pc + 4#32
  /-- Nothing else changes. -/
  mode : t.mode = s.mode
  cfg : t.cfg = s.cfg
  text : t.text = s.text
  schedule : t.schedule = s.schedule

/-- What R140, with R121, says of a store-conditional whose success bit is `success`, and nothing that rests on a decision of
the spec: the bit in `x[rt]` (for `rt` other than 0), the write exactly on 1, `LLB` cleared, no other register and no other
memory location changed. -/
structure Decided (rt : Reg) (pa : Nat) (bytes : List Byte) (success : Bool) (s t : State) : Prop where
  result : rt ≠ 0 → t.readReg rt = if success then 1#32 else 0#32
  written : success = true → ∀ j, (h : j < bytes.length) → t.mem.read (pa + j) = some bytes[j]
  kept : success = false → t.mem = s.mem
  llb : t.llb = false
  others : ∀ r, r ≠ rt → t.readReg r = s.readReg r
  elsewhere : ∀ a, a < pa ∨ pa + bytes.length ≤ a → t.mem.read a = s.mem.read a

/-- The `n` bytes at `va` overlap the 4 bytes of some word of the program text, addresses taken modulo 2^32 (R69). -/
def storesIntoText (s : State) (va : Word) (n : Nat) : Bool :=
  s.text.any (fun c =>
    decide ((va - BitVec.ofNat 32 c.1).toNat < 4) || decide ((BitVec.ofNat 32 c.1 - va).toNat < n))

/-- Every block that linked data can have meets R8: that of an aligned word, and of an aligned pair on a core that has
pairs. -/
def BlocksWf (c : Config) : Prop :=
  ∀ l : Link, l.nbytes = LinkKind.nbytes l.kind → l.pa % l.nbytes = 0 → l.pa + l.nbytes ≤ 2 ^ c.paBits →
    (l.nbytes = 8 → c.xnp = false) → blockWf c l = true

/-- A launch state (R191, R198) of a program that stores only into the ranges `stores`, each a virtual address and a number
of bytes: the pc even and inside the text, `EndPc` outside it, canonical memory and text, parameters within the source's
bounds (R8, R9), and no stored range in the text (R69). -/
structure Launch (s : State) (stores : List (Word × Nat)) : Prop where
  pcInText  : ∃ w, fetch s = .word w
  endPcOut  : cellsLookup s.text s.cfg.endPc.toNat = none
  memWf     : cellsWf s.mem = true
  textWf    : cellsWf s.text = true
  cfgWf     : s.cfg.wf = true
  blocksWf  : BlocksWf s.cfg
  textApart : ∀ r ∈ stores, storesIntoText s r.1 r.2 = false

/-- The instruction stores into one of the ranges (R69). -/
def storesWithin (stores : List (Word × Nat)) (i : Instr) (s : State) : Prop :=
  ∃ r ∈ stores, (addressOf i s - r.1).toNat + i.kind.nbytes ≤ r.2

/-- The run has ended normally: the processor stands at `EndPc`, outside the text (R198). -/
def Ended (s : State) : Prop := fetch s = .ended

/-- `n` steps from `s` meet no fault and no refusal. -/
def SafeFor (n : Nat) (s : State) : Prop := ∃ t : State, Host.Core.run Sys2Proof.core n s = .next t

/-- A turn between a load-linked instruction and the store-conditional: neither the processor's own nor another load-linked
instruction. -/
def Between : Turn → Bool
  | .processor => false
  | .foreign _ _ (.loadLinked _ _ _ _) => false
  | .foreign _ _ _ => true
  | .environment _ => true

/-- The turn completes a coherent store, by any agent, into the load-linked data (R67, R123). -/
def coherentStoreInto (l : Link) : Turn → Bool
  | .foreign _ _ (.access (.coherentStore _ cells)) => cells.any (fun c => inLinkedData l c.1)
  | .environment (.access (.coherentStore _ cells)) => cells.any (fun c => inLinkedData l c.1)
  | _ => false

/-- The canonical form of the machine's lists: memory and text sorted, and every listed byte at a physical address that
exists. -/
def ListsWf (s : State) : Prop :=
  cellsWf s.mem = true ∧ cellsWf s.text = true ∧ ∀ c ∈ s.mem, c.1 < 2 ^ s.cfg.paBits

/-- The link record is one a load-linked instruction can leave: its data size is that of its kind, and a mixed sequence is an
uncached one (R32, R40). -/
def LinkWf (s : State) : Prop :=
  (∀ l, s.link = some l → l.nbytes = LinkKind.nbytes l.kind) ∧
    (s.linkMixed = true → ∃ l, s.link = some l ∧ ccaUncached l.cca = true)

end Sys2Proof.Safety
end

