-- ==== Sys2Proof/Certificates/Slice0/Obligations.lean ====
section
/-! DEFINITION. The statements for the provers. Each docstring names the rule or section of spec/ it formalises; where a clause
rests on a decision of the spec's own or on a choice of the model, it names the decision or the log entry. -/

open Sys2Proof Sys2Proof.Machine Sys2Proof.Safety

/-! Encoding. -/

/-- Decoding the encoding of a well-formed instruction gives it back, every operand at every value the encoding admits,
under either reading of the `x` bits (30_encoding sections 2 to 4). -/
def Obligations.DecodeOfEncode : Prop :=
  ∀ (strictX : Bool) (i : Instr), i.wf = true → decode strictX (encode i) = .ok i

/-- What decodes is well formed, and its encoding is the word but for the `x` bits of the pair forms
(30_encoding sections 2 to 4; 92_eei_decisions D12, log 21). -/
def Obligations.EncodeOfDecode : Prop :=
  ∀ (strictX : Bool) (w : InstrWord) (i : Instr), decode strictX w = .ok i →
    i.wf = true ∧ encode i = if i.kind.nbytes = 8 then w &&& ~~~xMask else w

/-- R89 and R90: the four patterns under the mask, and every other word refused by name (90: 92_eei_decisions D13,
log 22). -/
def Obligations.DecodeByMaskAndMatch : Prop :=
  ∀ w : InstrWord,
    (w &&& 0xFC007F03#32 = 0xA4005900#32 →
      decode false w = .ok (.sc (fieldRt w) (fieldOffset w) (fieldRs w))) ∧
    (w &&& 0xFC007F03#32 = 0xA4005A00#32 →
      decode false w = .ok (.sce (fieldRt w) (fieldOffset w) (fieldRs w))) ∧
    (w &&& 0xFC007F03#32 = 0xA4005901#32 →
      decode false w = .ok (.scwp (fieldRt w) (fieldRu w) (fieldRs w))) ∧
    (w &&& 0xFC007F03#32 = 0xA4005A01#32 →
      decode false w = .ok (.scwpe (fieldRt w) (fieldRu w) (fieldRs w))) ∧
    (w &&& 0xFC007F03#32 ≠ 0xA4005900#32 → w &&& 0xFC007F03#32 ≠ 0xA4005A00#32 →
      w &&& 0xFC007F03#32 ≠ 0xA4005901#32 → w &&& 0xFC007F03#32 ≠ 0xA4005A01#32 →
      decode false w = .error .notDescribed)

/-- R86: the offset of a decoded word is `4 * word[7:2] - 256 * word[15]`, a multiple of 4 from -256 to 252, and the address
of SC and SCE is the base plus its sign extension. -/
def Obligations.OffsetValue : Prop :=
  ∀ (w : InstrWord) (s : State) (rs : Reg),
    (fieldOffset w).toInt = 4 * ((w.extractLsb' 2 6).toNat : Int) - 256 * ((w.extractLsb' 15 1).toNat : Int) ∧
    -256 ≤ (fieldOffset w).toInt ∧ (fieldOffset w).toInt ≤ 252 ∧ (fieldOffset w).toInt % 4 = 0 ∧
    wordAddress s rs (fieldOffset w) = s.readReg rs + BitVec.ofInt 32 (fieldOffset w).toInt

/-- R87: `rt`, `rs` and, in the pair forms, `ru` are the unsigned 5-bit fields of the word, used as the register's index;
every value from 0 to 31 occurs; the pair forms have offset 0. -/
def Obligations.RegisterOperands : Prop :=
  (∀ (w : InstrWord) (rt rs : Reg) (o : BitVec 9),
    (decode false w = .ok (.sc rt o rs) ∨ decode false w = .ok (.sce rt o rs)) →
      rt.val = (w.extractLsb' 21 5).toNat ∧ rs.val = (w.extractLsb' 16 5).toNat) ∧
  (∀ (w : InstrWord) (rt ru rs : Reg),
    (decode false w = .ok (.scwp rt ru rs) ∨ decode false w = .ok (.scwpe rt ru rs)) →
      rt.val = (w.extractLsb' 21 5).toNat ∧ rs.val = (w.extractLsb' 16 5).toNat ∧
        ru.val = (w.extractLsb' 3 5).toNat) ∧
  (∀ rt ru rs : Reg, (∃ w, decode false w = .ok (.sc rt 0#9 rs)) ∧ (∃ w, decode false w = .ok (.sce rt 0#9 rs)) ∧
    (∃ w, decode false w = .ok (.scwp rt ru rs)) ∧ (∃ w, decode false w = .ok (.scwpe rt ru rs))) ∧
  (∀ (s : State) (rt ru rs : Reg),
    addressOf (.scwp rt ru rs) s = s.readReg rs ∧ addressOf (.scwpe rt ru rs) s = s.readReg rs)

/-- R88 (a decision of the spec, 92_eei_decisions D12, log 21): the `x` bits 15 and 2 of a pair word do not matter; the
encoder writes them 0; under `StrictX` exactly the pair words with a nonzero `x` bit are refused. -/
def Obligations.PairIgnoresXBits : Prop :=
  ∀ (w v : InstrWord), w &&& ~~~xMask = v &&& ~~~xMask →
    (w &&& opcodeMask = ScKind.matchWord .scwp ∨ w &&& opcodeMask = ScKind.matchWord .scwpe) →
    decode false v = decode false w ∧
    (∀ i, decode false w = .ok i → encode i &&& xMask = 0#32) ∧
    (decode true w = if w &&& xMask = 0#32 then decode false w else .error .nonzeroX)

/-- Words of 95_test_vectors section 2.1, written out bit by bit from the diagrams of 30_encoding, decode to the
instructions they stand for, and neighbours of them are refused. -/
def Obligations.VectorWordsDecode : Prop :=
  decode false 0b10100101110011001101100111111100#32 = .ok (.sc 14 (BitVec.ofInt 9 (-4)) 12) ∧
  decode false 0b10100100010000111101101011111000#32 = .ok (.sce 2 (BitVec.ofInt 9 (-8)) 3) ∧
  decode false 0b10100100100001100101100100101001#32 = .ok (.scwp 4 5 6) ∧
  decode false 0b10100111111111111101101011111101#32 = .ok (.scwpe 31 31 31) ∧
  decode false 0xA5CC5902#32 = .error .notDescribed ∧ decode false 0xA5CC5100#32 = .error .notDescribed

/-! What a step is. -/

/-- When it is the processor's turn, the pc is even and the text holds at the pc a word that decodes to `i`, then `i` is
well formed and the step is `exec` of `i` at the state with that turn taken (30_encoding section 5; logs 9, 30). -/
def Obligations.StepRunsDecodedInstruction : Prop :=
  ∀ (s : State) (w : InstrWord) (i : Instr),
    pcEven s.pc = true → cellsLookup s.text s.pc.toNat = some w → decode s.cfg.strictX w = .ok i →
    i.wf = true ∧ (s.schedule = [] → step s = exec i s) ∧
      (∀ ts, s.schedule = .processor :: ts → step s = exec i (s.withSchedule ts))

/-- Where no instruction can be run at the pc the processor's turn stops by name, whether the schedule is empty or gives it
the turn: an odd pc faults, an undescribed word is refused and is never a Reserved Instruction, a pair word with a nonzero
`x` bit is refused under `StrictX`, `EndPc` outside the text ends the run, any other address outside the text is stuck
(30_encoding sections 4 and 5, 70_reset_and_hazards section 5; 92_eei_decisions D3, D11, D12, D13, D25; logs 11, 21, 22,
38). -/
def Obligations.StepStopsOutsideTheText : Prop :=
  ∀ (s : State), (s.schedule = [] ∨ ∃ ts, s.schedule = .processor :: ts) →
    (pcEven s.pc = false → step s = .fault (.oddPc s.pc)) ∧
    (pcEven s.pc = true → ∀ w, cellsLookup s.text s.pc.toNat = some w →
      (decode s.cfg.strictX w = .error .notDescribed → step s = .refused (.notDescribed w)) ∧
      ((w &&& opcodeMask = ScKind.matchWord .scwp ∨ w &&& opcodeMask = ScKind.matchWord .scwpe) →
        s.cfg.strictX = true → w &&& xMask ≠ 0#32 → step s = .refused (.nonzeroX w))) ∧
    (pcEven s.pc = true → cellsLookup s.text s.pc.toNat = none →
      (s.pc = s.cfg.endPc → step s = .refused .endOfRun) ∧ (s.pc ≠ s.cfg.endPc → step s = .fault (.stuck s.pc)))

/-- R91: the words of a feature that is absent still decode, and the step raises Reserved Instruction: SCWP and SCWPE when
`XNP = 1`, SCE and SCWPE when `EVA = 0`. (Under the option `StrictX` of R88 a pair word with a nonzero `x` bit is not
decoded.) -/
def Obligations.AbsentFeatureTraps : Prop :=
  ∀ (s : State) (w : InstrWord), (s.schedule = [] ∨ ∃ ts, s.schedule = .processor :: ts) →
    pcEven s.pc = true → cellsLookup s.text s.pc.toNat = some w →
    ((w &&& opcodeMask = ScKind.matchWord .scwp ∨ w &&& opcodeMask = ScKind.matchWord .scwpe) →
      (s.cfg.strictX = false ∨ w &&& xMask = 0#32) → s.cfg.xnp = true →
      step s = .fault (.raised .reservedInstruction s.pc)) ∧
    (w &&& opcodeMask = ScKind.matchWord .sce → s.cfg.eva = false →
      step s = .fault (.raised .reservedInstruction s.pc)) ∧
    (w &&& opcodeMask = ScKind.matchWord .scwpe → (s.cfg.strictX = false ∨ w &&& xMask = 0#32) → s.cfg.eva = false →
      step s = .fault (.raised .reservedInstruction s.pc))

/-! The four instructions: what they leave. -/

/-- SC and SCE complete whenever the tests of R100 pass: the result, the 4 bytes stored, and everything that stays
(40_store_conditional sections 2 and 4; decisions D1, D3, D8, D14, D18, D19; logs 10, 11, 17, 18, 20, 27). -/
def Obligations.WordFormsComplete : Prop :=
  ∀ (rt rs : Reg) (offset : BitVec 9) (s : State) (pa : Nat) (cca : Cca),
    (Reaches .sc s (s.readReg rs + offset.signExtend 32) pa cca →
      ∃ success t, exec (.sc rt offset rs) s = .next t ∧
        Completed rt pa (dataBytes s.cfg.be 4 (s.readReg rt)) success s t) ∧
    (Reaches .sce s (s.readReg rs + offset.signExtend 32) pa cca →
      ∃ success t, exec (.sce rt offset rs) s = .next t ∧
        Completed rt pa (dataBytes s.cfg.be 4 (s.readReg rt)) success s t)

/-- SCWP and SCWPE complete whenever the tests of R100 pass: the result in `rt` alone, and 8 bytes, the word of `rt` first
and the word of `ru` after it, each in the byte order of `BE` (40_store_conditional sections 2 and 4, 20_memory section 2;
decisions D6, D18, D19; logs 19, 20, 27). -/
def Obligations.PairFormsComplete : Prop :=
  ∀ (rt ru rs : Reg) (s : State) (pa : Nat) (cca : Cca),
    (Reaches .scwp s (s.readReg rs) pa cca →
      ∃ success t, exec (.scwp rt ru rs) s = .next t ∧
        Completed rt pa (dataBytes s.cfg.be 4 (s.readReg rt) ++ dataBytes s.cfg.be 4 (s.readReg ru)) success s t) ∧
    (Reaches .scwpe s (s.readReg rs) pa cca →
      ∃ success t, exec (.scwpe rt ru rs) s = .next t ∧
        Completed rt pa (dataBytes s.cfg.be 4 (s.readReg rt) ++ dataBytes s.cfg.be 4 (s.readReg ru)) success s t)

/-- An instruction answers a next state exactly when the tests of R100 pass for some translated address, and that address is
unique (40_store_conditional section 2). -/
def Obligations.CompletesExactlyWhenReached : Prop :=
  ∀ (i : Instr) (s : State),
    ((∃ t, exec i s = .next t) ↔ ∃ pa cca, Reaches i.kind s (addressOf i s) pa cca) ∧
    (∀ pa cca pa' cca', Reaches i.kind s (addressOf i s) pa cca → Reaches i.kind s (addressOf i s) pa' cca' →
      pa = pa' ∧ cca = cca')

/-- R121, its last sentence: `x[rt] = 1` exactly when the write occurred, here for `rt` other than 0 (register 0: log 20);
on 0 all of memory is as before. -/
def Obligations.ResultTellsTheWrite : Prop :=
  ∀ (i : Instr) (s t : State) (pa : Nat) (cca : Cca), destOf i ≠ 0 →
    Reaches i.kind s (addressOf i s) pa cca → exec i s = .next t →
    (t.readReg (destOf i) = 1#32 ∧ (∀ j, (h : j < (bytesOf i s).length) → t.mem.read (pa + j) = some (bytesOf i s)[j])) ∨
    (t.readReg (destOf i) = 0#32 ∧ t.mem = s.mem)

/-- R140 with R136, R137 and R138: when the result is unpredictable (no link, another partner, another address or
attribute, a location that is not synchronizable, or a condition of R139 or R141) the success bit is drawn, the write is
made exactly on 1, the drawn bit goes to `x[rt]`, `LLB` is cleared, and no other register and no other memory location
changes. -/
def Obligations.UnpredictableResultIsDrawn : Prop :=
  ∀ (i : Instr) (s : State) (pa : Nat) (cca : Cca), Reaches i.kind s (addressOf i s) pa cca →
    ¬ Predictable i.kind s (addressOf i s) pa cca →
    ∃ t, exec i s = .next t ∧ Decided (destOf i) pa (bytesOf i s) (Config.draw s.draws) s t ∧ t.draws = s.draws + 1

/-- With a predictable result, `LLB = 0` or a broken link forces failure, with no draw (41_llsc_sequence sections 2 and 9;
that `LLB = 0` forces it is 92_eei_decisions D21, log 26). -/
def Obligations.BrokenLinkForcesFailure : Prop :=
  ∀ (i : Instr) (s : State) (pa : Nat) (cca : Cca), Reaches i.kind s (addressOf i s) pa cca →
    Predictable i.kind s (addressOf i s) pa cca → (s.llb = false ∨ s.linkBroken = true) →
    ∃ t, exec i s = .next t ∧ Completed (destOf i) pa (bytesOf i s) false s t ∧ t.draws = s.draws

/-- With a predictable result and an intact link the success bit is drawn, unless `AssumeProgress` holds and no may-fail
event happened: then the store succeeds with no draw (41_llsc_sequence sections 5 and 9; 92_eei_decisions D22,
log 28). -/
def Obligations.IntactLinkSucceedsOrDraws : Prop :=
  ∀ (i : Instr) (s : State) (pa : Nat) (cca : Cca), Reaches i.kind s (addressOf i s) pa cca →
    Predictable i.kind s (addressOf i s) pa cca → s.llb = true → s.linkBroken = false →
    ∃ t, exec i s = .next t ∧
      (if s.cfg.assumeProgress = true ∧ s.mayFail = false ∧
          (spanWith s.span s.pc 4).last < (spanWith s.span s.pc 4).first + 2048
        then Completed (destOf i) pa (bytesOf i s) true s t ∧ t.draws = s.draws
        else Completed (destOf i) pa (bytesOf i s) (Config.draw s.draws) s t ∧ t.draws = s.draws + 1)

/-- R139: which attributes support atomic read-modify-write, and that a store with one that does not has a drawn result. The
uncached case with `ULS = 0` never gets that far. -/
def Obligations.AttributesThatSupportRmw : Prop :=
  (∀ (c : Config) (cca : Cca), ccaSupportsRmw c cca = true ↔
    ccaKind c cca = .cachedCoherent ∨ (ccaKind c cca = .cachedNoncoherent ∧ c.multiprocessor = false) ∨
      ((ccaKind c cca = .uncached ∨ ccaKind c cca = .uncachedAccelerated) ∧ c.uls = true)) ∧
  (∀ (i : Instr) (s : State) (pa : Nat) (cca : Cca), Reaches i.kind s (addressOf i s) pa cca →
    ccaSupportsRmw s.cfg cca = false →
    (∃ t, exec i s = .next t ∧ Decided (destOf i) pa (bytesOf i s) (Config.draw s.draws) s t ∧
      t.draws = s.draws + 1) ∧
    ccaKind s.cfg cca = .cachedNoncoherent ∧ s.cfg.multiprocessor = true)

/-- After a word form that stored, the 4 bytes read back as `x[rt]`; after a pair form that stored, the 4 bytes at `pa` read
back as `x[rt]` and those at `pa + 4` as `x[ru]`, in either byte order (20_memory section 2; 92_eei_decisions D6, D8,
log 19). -/
def Obligations.StoredWordsReadBack : Prop :=
  ∀ (rt ru rs : Reg) (offset : BitVec 9) (s t : State) (pa : Nat) (cca : Cca), rt ≠ 0 → t.readReg rt = 1#32 →
    (Reaches .sc s (wordAddress s rs offset) pa cca → exec (.sc rt offset rs) s = .next t →
      memRead s.cfg.be t.mem pa 4 = some (s.readReg rt)) ∧
    (Reaches .sce s (wordAddress s rs offset) pa cca → exec (.sce rt offset rs) s = .next t →
      memRead s.cfg.be t.mem pa 4 = some (s.readReg rt)) ∧
    (Reaches .scwp s (pairAddress s rs) pa cca → exec (.scwp rt ru rs) s = .next t →
      memRead s.cfg.be t.mem pa 4 = some (s.readReg rt) ∧
        memRead s.cfg.be t.mem (pa + 4) 4 = some (s.readReg ru)) ∧
    (Reaches .scwpe s (pairAddress s rs) pa cca → exec (.scwpe rt ru rs) s = .next t →
      memRead s.cfg.be t.mem pa 4 = some (s.readReg rt) ∧
        memRead s.cfg.be t.mem (pa + 4) 4 = some (s.readReg ru))

/-- The memory primitives of R52, at every width and in both byte orders: what `MemWrite` writes, `MemRead` reads, and every
other byte is as before; big-endian, byte `i` from `pa` up is the `i`-th most significant of the value, and little-endian
the `i`-th least significant (92_eei_decisions D6 and D8, log 19). -/
def Obligations.MemReadOfMemWrite : Prop :=
  ∀ (m : Memory) (pa n : Nat) (v : BitVec (8 * n)),
    (∀ be : Bool, memRead be (memWrite be m pa n v) pa n = some v ∧
      ∀ a, a < pa ∨ pa + n ≤ a → (memWrite be m pa n v).read a = m.read a) ∧
    (∀ i < n, (memWrite true m pa n v).read (pa + i) = some (v.extractLsb' (8 * (n - 1 - i)) 8) ∧
      (memWrite false m pa n v).read (pa + i) = some (v.extractLsb' (8 * i) 8))

/-- R112: every store-conditional that completes leaves `LLB = 0`, and a second one with no load-linked instruction between
finds `LLB = 0` and no link. -/
def Obligations.CompletionClearsLlb : Prop :=
  ∀ (i : Instr) (s t : State), exec i s = .next t → t.llb = false ∧ t.link = none

/-- The second of two store-conditionals has a drawn result, whatever turns of other agents and of instructions the spec does
not describe lie between, if no load-linked instruction is among them (40_store_conditional section 2;
92_eei_decisions D19, log 27). -/
def Obligations.SecondStoreConditionalDraws : Prop :=
  ∀ (i j : Instr) (s t t' : State) (ts rest : List Turn) (pa : Nat) (cca : Cca), exec i s = .next t →
    t.schedule = ts ++ rest → (∀ x ∈ ts, Between x = true) → Host.Core.run Sys2Proof.core ts.length t = .next t' →
    Reaches j.kind t' (addressOf j t') pa cca →
    ∃ u, exec j t' = .next u ∧ Completed (destOf j) pa (bytesOf j t') (Config.draw t'.draws) t' u ∧
      u.draws = t'.draws + 1

/-- R109: a store-conditional that fails completes normally, and the tests that can stop the instruction do not look at
whether the store would have succeeded: with any link, `LLB` and flags they stop it in the same way or not at all (for the
watch and bus-error tests: decision D8, log 17; the pc: decision D3, log 11). `Cop0Usable` of the state is a parameter
(00_scope R12): for an EVA form it must agree on the two states, as it does where it is given by the mode (log 16). -/
def Obligations.ChecksIgnoreTheLink : Prop :=
  ∀ (i : Instr) (s : State) (llb : Bool) (link : Option Link) (broken mixed mayFail : Bool) (span : Option Span),
    let s' : State := { s with
      llb := llb, link := link, linkBroken := broken, linkMixed := mixed, mayFail := mayFail, span := span }
    (SameCop0 i.kind s s' →
      (∀ f, exec i s = .fault f → exec i s' = .fault f) ∧
      (∀ r, exec i s = .refused r → exec i s' = .refused r) ∧
      (∀ t, exec i s = .next t → ∃ t', exec i s' = .next t')) ∧
    (∀ t, exec i s = .next t → t.readReg (destOf i) = 0#32 → destOf i ≠ 0 →
      t.mem = s.mem ∧ t.llb = false ∧ t.pc = s.pc + 4#32)

/-- R23: an instruction reads and writes only the general registers it names. Changing any other one beforehand changes that
register in the outcome and nothing else, if for an EVA form it changes not what the parameter `Cop0Usable` says of the state,
which it never does where that is given by the mode (log 16). -/
def Obligations.OtherRegistersIrrelevant : Prop :=
  ∀ (i : Instr) (s : State) (r : Reg) (v : Word), usesReg i r = false → SameCop0 i.kind s (s.writeReg r v) →
    (∀ t, exec i s = .next t → exec i (s.writeReg r v) = .next (t.writeReg r v)) ∧
    (∀ f, exec i s = .fault f → exec i (s.writeReg r v) = .fault f) ∧
    (∀ x, exec i s = .refused x → exec i (s.writeReg r v) = .refused x)

/-- No instruction in scope loads from memory: the contents of memory affect nothing but memory (20_memory section 4), if for
an EVA form they change not what the parameter `Cop0Usable` says of the state, which they never do where that is given by the
mode (log 16). -/
def Obligations.MemoryContentsAffectOnlyMemory : Prop :=
  ∀ (i : Instr) (s : State) (m : Memory), SameCop0 i.kind s (s.withMem m) →
    (∀ t, exec i s = .next t → ∃ m', exec i (s.withMem m) = .next (t.withMem m')) ∧
    (∀ f, exec i s = .fault f → exec i (s.withMem m) = .fault f) ∧
    (∀ x, exec i s = .refused x → exec i (s.withMem m) = .refused x)

/-- Register 0 reads as zero in every state and a write to it changes nothing; an instruction with `rt = 0` changes no
general register (10_state section 1, general knowledge of the spec; 92_eei_decisions D18, log 20). -/
def Obligations.RegisterZeroDiscards : Prop :=
  (∀ s : State, s.readReg 0 = 0#32 ∧ ∀ v, s.writeReg 0 v = s) ∧
  (∀ (i : Instr) (s t : State), destOf i = 0 → exec i s = .next t → t.gpr = s.gpr)

/-! Exceptions. -/

/-- R161: SCWP and SCWPE raise Reserved Instruction when `XNP = 1`, whatever else holds; no address is recorded. -/
def Obligations.PairNeedsXnpClear : Prop :=
  ∀ (rt ru rs : Reg) (s : State), s.cfg.xnp = true →
    exec (.scwp rt ru rs) s = .fault (.raised .reservedInstruction s.pc) ∧
    exec (.scwpe rt ru rs) s = .fault (.raised .reservedInstruction s.pc)

/-- R162: SCE and SCWPE raise Reserved Instruction when `EVA = 0`, whatever else holds; no address is recorded. -/
def Obligations.EvaFormsNeedEva : Prop :=
  ∀ (rt ru rs : Reg) (offset : BitVec 9) (s : State), s.cfg.eva = false →
    exec (.sce rt offset rs) s = .fault (.raised .reservedInstruction s.pc) ∧
    exec (.scwpe rt ru rs) s = .fault (.raised .reservedInstruction s.pc)

/-- The parameter `Cop0Usable(state)`: given by the mode it is the value of the mode, so that all states with one configuration
and one mode agree; after reset it is that of the default, usable exactly in kernel mode; as an oracle it is a predicate of the
state that 10_state counts (60_exceptions section 1; 92_eei_decisions D14 and D15, logs 3 and 16). -/
def Obligations.Cop0UsableOfTheState : Prop :=
  (∀ (s : State) (kernel user : Bool), s.cfg.cop0 = .byMode kernel user →
    cop0Usable s = (if s.mode = .kernel then kernel else user) ∧
    ∀ (k : ScKind) (s' : State), s'.cfg = s.cfg → s'.mode = s.mode → SameCop0 k s s') ∧
  (∀ s : State, s.cfg = State.reset.cfg → (cop0Usable s = true ↔ s.mode = .kernel)) ∧
  (∀ (s : State) (n : Nat), s.cfg.cop0 = .oracle n → cop0Usable s = Config.cop0Oracle n s.arch) ∧
  (∀ s s' : State, s'.cfg = s.cfg → s'.arch = s.arch → cop0Usable s' = cop0Usable s)

/-- R55: a misaligned effective address raises Address Error with `badva = va` (once the form is available, R56), and never
completes; for SC and SCE with an offset the encoding holds it is misaligned exactly when the base is. -/
def Obligations.MisalignedAddressTraps : Prop :=
  (∀ (i : Instr) (s : State), (addressOf i s).toNat % i.kind.nbytes ≠ 0 →
    (∀ t, exec i s ≠ .next t) ∧
    ((i.kind.nbytes = 8 → s.cfg.xnp = false) → (i.kind.isEva = true → s.cfg.eva = true ∧ cop0Usable s = true) →
      exec i s = .fault (.raised (.addressErrorStore (addressOf i s)) s.pc))) ∧
  (∀ (s : State) (rs : Reg) (offset : BitVec 9), offsetEncodable offset = true →
    ((wordAddress s rs offset).toNat % 4 ≠ 0 ↔ (s.readReg rs).toNat % 4 ≠ 0))

/-- R65: for an uncached attribute with `ULS = 0` the outcome is `unpredictable`, and no next state and no Bus Error. -/
def Obligations.UncachedWithoutUlsIsRefused : Prop :=
  ∀ (i : Instr) (s : State) (pa : Nat) (cca : Cca),
    (i.kind.nbytes = 8 → s.cfg.xnp = false) → (i.kind.isEva = true → s.cfg.eva = true ∧ cop0Usable s = true) →
    (addressOf i s).toNat % i.kind.nbytes = 0 →
    translate s.cfg (addressOf i s) i.kind.isEva s.mode = .mapped pa cca → pa + i.kind.nbytes ≤ 2 ^ s.cfg.paBits →
    (cca = 2#3 ∨ cca = 7#3) → s.cfg.uls = false → exec i s = .refused (.unpredictable s.pc)

/-- The order of the tests (60_exceptions section 3; the places of Coprocessor Unusable, Watch and Bus Error are decisions D14
and D8, logs 17 and 18; the address that a TLB exception records and the coprocessor's number are log 46; an address beyond
the physical space faults first of the accesses, log 13). -/
def Obligations.ExceptionPriority : Prop :=
  ∀ (i : Instr) (s : State),
    if i.kind.nbytes = 8 ∧ s.cfg.xnp = true then exec i s = .fault (.raised .reservedInstruction s.pc)
    else if i.kind.isEva = true ∧ s.cfg.eva = false then exec i s = .fault (.raised .reservedInstruction s.pc)
    else if i.kind.isEva = true ∧ cop0Usable s = false then
      exec i s = .fault (.raised (.coprocessorUnusable 0) s.pc)
    else if (addressOf i s).toNat % i.kind.nbytes ≠ 0 then
      exec i s = .fault (.raised (.addressErrorStore (addressOf i s)) s.pc)
    else match translate s.cfg (addressOf i s) i.kind.isEva s.mode with
      | .raises .addressError => exec i s = .fault (.raised (.addressErrorStore (addressOf i s)) s.pc)
      | .raises .tlbRefill => exec i s = .fault (.raised (.tlbRefill (addressOf i s)) s.pc)
      | .raises .tlbInvalid => exec i s = .fault (.raised (.tlbInvalid (addressOf i s)) s.pc)
      | .raises .tlbModified => exec i s = .fault (.raised (.tlbModified (addressOf i s)) s.pc)
      | .mapped pa cca =>
        if 2 ^ s.cfg.paBits < pa + i.kind.nbytes then
          exec i s = .fault (.noSuchPhysicalAddress pa i.kind.nbytes)
        else if (cca = 2#3 ∨ cca = 7#3) ∧ s.cfg.uls = false then exec i s = .refused (.unpredictable s.pc)
        else if watchMatch s.cfg (addressOf i s) i.kind.nbytes = true then exec i s = .fault (.raised .watch s.pc)
        else if busErrorAt s.cfg pa cca i.kind.nbytes = true then exec i s = .fault (.raised .busError s.pc)
        else ∃ t, exec i s = .next t

/-- Which exceptions a form can raise, and that a raised one carries the unchanged pc: SC and SCWP never raise Coprocessor
Unusable, SC never raises Reserved Instruction; apart from exceptions an instruction faults only on a physical address
that does not exist (60_exceptions sections 1 and 4, 40_store_conditional section 4; logs 13 and 46). -/
def Obligations.ExceptionsOfEachForm : Prop :=
  ∀ (i : Instr) (s : State) (f : Fault), exec i s = .fault f →
    (∃ x, f = .raised x s.pc ∧
      (x = .reservedInstruction → i.kind ≠ .sc ∧ (i.kind = .sce → s.cfg.eva = false)) ∧
      (∀ u, x = .coprocessorUnusable u → u = 0 ∧ (i.kind = .sce ∨ i.kind = .scwpe)) ∧
      (∀ a, x = .addressErrorStore a ∨ x = .tlbRefill a ∨ x = .tlbInvalid a ∨ x = .tlbModified a →
        a = addressOf i s)) ∨
    ∃ pa, f = .noSuchPhysicalAddress pa i.kind.nbytes

/-- The EVA forms translate as though in user mode: for them translation is that of user mode whatever the mode, and an EVA
form in a mode where coprocessor 0 is usable reaches its store exactly where the plain form in user mode would, given
`EVA = 1` (20_memory section 6, 60_exceptions section 5). -/
def Obligations.EvaTranslatesAsUser : Prop :=
  (∀ (c : Config) (va : Word) (mode : Mode), translate c va true mode = translate c va false .user) ∧
  (∀ (s : State) (va : Word) (pa : Nat) (cca : Cca), s.cfg.eva = true → cop0Usable s = true →
    (Reaches .sce s va pa cca ↔ Reaches .sc { s with mode := .user } va pa cca) ∧
    (Reaches .scwpe s va pa cca ↔ Reaches .scwp { s with mode := .user } va pa cca))

/-! Other agents and the instructions around a sequence. -/

/-- A step of another agent changes no general register, not the pc, the mode, `LLB`, the link record, the configuration, the
text or the draws, and uses up its turn (41_llsc_sequence section 10; 92_eei_decisions D9, log 30). -/
def Obligations.EnvironmentKeepsTheProcessor : Prop :=
  ∀ (s t : State) (e : EnvEvent) (ts : List Turn), s.schedule = .environment e :: ts → step s = .next t →
    t.gpr = s.gpr ∧ t.pc = s.pc ∧ t.mode = s.mode ∧ t.llb = s.llb ∧ t.link = s.link ∧ t.span = s.span ∧
      t.cfg = s.cfg ∧ t.text = s.text ∧ t.draws = s.draws ∧ t.schedule = ts

/-- While a link is held a coherent store, by another agent or by this processor, with a byte in the block of the linked data
writes its bytes, keeps the link record and breaks the link; and a store-conditional whose result is predictable then fails
(41_llsc_sequence section 2; 20_memory section 7; which stores are coherent: log 47; logs 30, 31, 32). -/
def Obligations.CoherentStoreIntoBlockBreaks : Prop :=
  ∀ (s t : State) (l : Link) (cca : Cca) (cells : List Host.Cell) (ts : List Turn) (v : Word) (len : Nat),
    s.link = some l → (∃ c ∈ cells, inBlock s.cfg l c.1 = true) →
    (s.schedule = .environment (.access (.coherentStore cca cells)) :: ts ∨
      s.schedule = .foreign v len (.access (.coherentStore cca cells)) :: ts) →
    step s = .next t →
    (t.mem = Memory.writeCells s.mem cells ∧ t.link = some l ∧ t.linkBroken = true) ∧
    (∀ (i : Instr) (pa : Nat) (pcca : Cca), Reaches i.kind t (addressOf i t) pa pcca →
      Predictable i.kind t (addressOf i t) pa pcca →
      ∃ u, exec i t = .next u ∧ Completed (destOf i) pa (bytesOf i t) false t u)

/-- The block of linked data is `BlockOf` of the linked address alone, whatever the size of the data, it contains them, and
its size is at least one word and at most the minimum page size, on every platform that meets R8 for linked data that are
aligned (00_scope section 4, 41_llsc_sequence section 2; that `BlockOf` is a list of ranges: log 31). -/
def Obligations.BlockBounds : Prop :=
  ∀ (c : Config) (l : Link), BlocksWf c → l.nbytes = LinkKind.nbytes l.kind → l.pa % l.nbytes = 0 →
    l.pa + l.nbytes ≤ 2 ^ c.paBits → (l.nbytes = 8 → c.xnp = false) →
    (∀ a, inBlock c l a = true ↔ ∃ r ∈ blockOf c l.pa, r.first ≤ a ∧ a ≤ r.last) ∧
    (∀ j < l.nbytes, ∃ r ∈ blockOf c l.pa, r.first ≤ l.pa + j ∧ l.pa + j ≤ r.last) ∧
    4 ≤ ((blockOf c l.pa).map PhysRange.size).sum ∧ ((blockOf c l.pa).map PhysRange.size).sum ≤ c.minPageSize

/-- Blocks of one size that is a multiple of 8 and at most the minimum page size, aligned to a multiple of 8, meet R8; those
of the state after reset do (00_scope section 4; the values after reset: log 3). -/
def Obligations.RegularBlocksMeetTheBounds : Prop :=
  (∀ c : Config, c.blocks = [] → 0 < c.blockSize → c.blockSize % 8 = 0 → c.blockShift % 8 = 0 →
    c.blockSize ≤ c.minPageSize → BlocksWf c) ∧
  BlocksWf State.reset.cfg

/-- R134: no load, by this processor or by another agent, sets `link_broken`, changes the link record, `LLB` or memory; one
from the block of the linked data is no may-fail event either, and with the sequence's attribute no load sets
`link_mixed`. -/
def Obligations.LoadInBlockIsHarmless : Prop :=
  ∀ (s t : State) (cca : Cca) (addrs : List Nat) (ts : List Turn) (v : Word) (len : Nat),
    (s.schedule = .foreign v len (.access (.load cca addrs)) :: ts ∨
      s.schedule = .environment (.access (.load cca addrs)) :: ts) → step s = .next t →
    t.link = s.link ∧ t.linkBroken = s.linkBroken ∧ t.llb = s.llb ∧ t.mem = s.mem ∧
      (∀ l, s.link = some l → ((∀ a ∈ addrs, inBlock s.cfg l a = true) → t.mayFail = s.mayFail) ∧
        (cca = l.cca → t.linkMixed = s.linkMixed))

/-- R126: an executed ERETNC changes neither `link_broken` nor `LLB` (nor the link record), so it causes no failure. -/
def Obligations.EretncKeepsTheLink : Prop :=
  ∀ (s : State) (ts : List Turn) (v : Word) (len : Nat), s.schedule = .foreign v len .eretnc :: ts →
    ∃ t, step s = .next t ∧ t.linkBroken = s.linkBroken ∧ t.llb = s.llb ∧ t.link = s.link ∧
      t.linkMixed = s.linkMixed ∧ t.mayFail = s.mayFail

/-- After an ERET no later turn short of a load-linked instruction or the store-conditional mends the link: a
store-conditional with a predictable result fails (41_llsc_sequence section 2; that ERET also clears `LLB` is general
knowledge of the spec, log 34). -/
def Obligations.EretForcesFailure : Prop :=
  ∀ (i : Instr) (s t u : State) (ts rest : List Turn) (v : Word) (len pa : Nat) (cca : Cca),
    s.schedule = .foreign v len .eret :: (ts ++ rest) → (∀ x ∈ ts, Between x = true) →
    Host.Core.run Sys2Proof.core (ts.length + 1) s = .next t → exec i t = .next u →
    Reaches i.kind t (addressOf i t) pa cca → Predictable i.kind t (addressOf i t) pa cca →
    t.schedule = rest ∧ Completed (destOf i) pa (bytesOf i t) false t u

/-- R141: `link_mixed` is false after a load-linked instruction; in an uncached sequence any agent's access to the block with
another attribute sets it; when it is set the result is drawn. And no instruction in scope leaves it set (92_eei_decisions
D19, log 27). -/
def Obligations.OtherAttributeMixes : Prop :=
  (∀ (s t : State) (k : LinkKind) (va v : Word) (len pa : Nat) (cca : Cca) (ts : List Turn),
    s.schedule = .foreign v len (.loadLinked k va pa cca) :: ts → step s = .next t → t.linkMixed = false) ∧
  (∀ (s t : State) (l : Link) (a : Access) (v : Word) (len : Nat) (ts : List Turn),
    s.link = some l → (l.cca = 2#3 ∨ l.cca = 7#3) → Access.attr a ≠ l.cca →
    (∃ p ∈ Access.addrs a, inBlock s.cfg l p = true) →
    (s.schedule = .environment (.access a) :: ts ∨ s.schedule = .foreign v len (.access a) :: ts) →
    step s = .next t → t.linkMixed = true) ∧
  (∀ (i : Instr) (s : State) (pa : Nat) (cca : Cca), s.linkMixed = true →
    Reaches i.kind s (addressOf i s) pa cca →
    ∃ t, exec i s = .next t ∧ Decided (destOf i) pa (bytesOf i s) (Config.draw s.draws) s t ∧
      t.draws = s.draws + 1) ∧
  (∀ (i : Instr) (s t : State), exec i s = .next t → t.linkMixed = false)

/-- In an uncached sequence an uncached store of this processor that overlaps the linked data breaks the link; the same store
by another agent, or with a cached attribute, does not (41_llsc_sequence section 2; log 35). -/
def Obligations.OwnUncachedStoreBreaks : Prop :=
  ∀ (s t : State) (l : Link) (cca : Cca) (cells : List Host.Cell) (ts : List Turn) (v : Word) (len : Nat),
    s.link = some l → s.linkBroken = false → (∃ c ∈ cells, inLinkedData l c.1 = true) → step s = .next t →
    (s.schedule = .foreign v len (.access (.nonCoherentStore cca cells)) :: ts →
      (t.linkBroken = true ↔ (l.cca = 2#3 ∨ l.cca = 7#3) ∧ (cca = 2#3 ∨ cca = 7#3))) ∧
    (s.schedule = .environment (.access (.nonCoherentStore cca cells)) :: ts → t.linkBroken = false)

/-- PREF, a CACHE operation of this processor or of another agent, and an exception whose handler runs change nothing but the
record of may-fail events, while a link is held, and not even that while none is (41_llsc_sequence sections 2 and 3; logs 28
and 48). -/
def Obligations.MayFailEventsOnlyNote : Prop :=
  ∀ (s : State) (ts : List Turn) (v : Word) (len : Nat) (e : ForeignEvent),
    (∀ l, s.link = some l →
      (s.schedule = .foreign v len e :: ts → (e = .pref ∨ e = .cacheOp ∨ e = .exception) →
        step s = .next { s with schedule := ts, mayFail := true, span := some (spanWith s.span v len) }) ∧
      (s.schedule = .environment .cacheOp :: ts → step s = .next { s with schedule := ts, mayFail := true })) ∧
    (s.link = none →
      (s.schedule = .foreign v len e :: ts → (e = .pref ∨ e = .cacheOp ∨ e = .exception) →
        step s = .next { s with schedule := ts }) ∧
      (s.schedule = .environment .cacheOp :: ts → step s = .next { s with schedule := ts }))

/-- An access of this processor, a load or a store of any bytes with any attribute, that touches a byte outside the block
while a link is held is a may-fail event (R129; one that straddles the block's end too: log 49). If all its bytes lie
outside the block it does nothing else to the sequence: the link, its two flags and `LLB` stay (41_llsc_sequence sections 2
and 3; log 28). -/
def Obligations.AccessOutsideTheBlockMayFail : Prop :=
  ∀ (s t : State) (l : Link) (a : Access) (ts : List Turn) (v : Word) (len : Nat), s.link = some l →
    s.schedule = .foreign v len (.access a) :: ts → (∃ p ∈ Access.addrs a, inBlock s.cfg l p = false) → step s = .next t →
    t.mayFail = true ∧ t.link = some l ∧ t.llb = s.llb ∧ t.mem = Memory.writeCells s.mem (Access.cells a) ∧
    ((∀ p ∈ Access.addrs a, inBlock s.cfg l p = false) → t.linkBroken = s.linkBroken ∧ t.linkMixed = s.linkMixed)

/-- A non-coherent store with a byte in the block while a link is held is a may-fail event on a multi-processor system,
whoever makes it, and when this processor makes it on any system (log 50). It writes its bytes and, in a cached sequence,
forces no failure: link, `link_broken` and `LLB` stay (41_llsc_sequence section 3; 91_not_in_source N25; log 28). -/
def Obligations.NonCoherentStoreMayFail : Prop :=
  ∀ (s t : State) (l : Link) (cca : Cca) (cells : List Host.Cell) (ts : List Turn) (v : Word) (len : Nat),
    s.link = some l → (∃ c ∈ cells, inBlock s.cfg l c.1 = true) →
    (s.schedule = .foreign v len (.access (.nonCoherentStore cca cells)) :: ts ∨
      (s.schedule = .environment (.access (.nonCoherentStore cca cells)) :: ts ∧ s.cfg.multiprocessor = true)) →
    step s = .next t →
    t.mayFail = true ∧ t.link = some l ∧ t.llb = s.llb ∧ t.mem = Memory.writeCells s.mem cells ∧
    ((l.cca ≠ 2#3 ∧ l.cca ≠ 7#3) → t.linkBroken = s.linkBroken)

/-- R145: PAUSE after an uncached load-linked instruction does nothing (but take its place in the sequence). -/
def Obligations.PauseInUncachedSequenceIsNop : Prop :=
  ∀ (s : State) (l : Link) (ts : List Turn) (v : Word) (len : Nat), s.link = some l →
    (l.cca = 2#3 ∨ l.cca = 7#3) → s.schedule = .foreign v len .pause :: ts →
    step s = .next { s with schedule := ts, span := some (spanWith s.span v len) }

/-- A load-linked instruction and then its partner at the same address, with no other turn between: the result is
predictable and the link intact, so under `AssumeProgress` and inside a 2048-byte region the store-conditional succeeds,
and without `AssumeProgress` its result is the next draw (41_llsc_sequence sections 1, 5 and 9; decisions D19 and D22,
logs 28 and 33). For an EVA form coprocessor 0 must be usable still, as it is where `Cop0Usable` is given by the mode
(log 16). -/
def Obligations.UninterruptedSequence : Prop :=
  ∀ (i : Instr) (s : State) (ts : List Turn) (v : Word) (len pa : Nat) (cca : Cca),
    s.schedule = .foreign v len (.loadLinked (partner i.kind) (addressOf i s) pa cca) :: ts →
    Reaches i.kind s (addressOf i s) pa cca → synchronizable s.cfg pa cca = true → ccaSupportsRmw s.cfg cca = true →
    ∃ t, step s = .next t ∧ (SameCop0 i.kind s t → ∃ u, exec i t = .next u ∧
      (s.cfg.assumeProgress = false → Completed (destOf i) pa (bytesOf i s) (Config.draw s.draws) t u) ∧
      (s.cfg.assumeProgress = true → v.toNat + len ≤ s.pc.toNat → s.pc.toNat + 4 ≤ v.toNat + 2048 →
        Completed (destOf i) pa (bytesOf i s) true t u ∧ u.draws = s.draws))

/-- R67, the headline: take a load-linked instruction, then any turns of other agents and of instructions the spec does not
describe, then a store-conditional whose result is predictable. If it returns 1, no coherent store by any agent was
completed into the linked data in between; if it returns 0, memory is unchanged by it. With `rt = 0`, where nothing is
returned, the same is said of a store that changed memory. -/
def Obligations.SuccessMeansNoCoherentStoreBetween : Prop :=
  ∀ (i : Instr) (s t u : State) (k : LinkKind) (va v : Word) (len pa pa' : Nat) (cca cca' : Cca) (ts rest : List Turn),
    s.schedule = .foreign v len (.loadLinked k va pa cca) :: (ts ++ rest) → (∀ x ∈ ts, Between x = true) →
    Host.Core.run Sys2Proof.core (ts.length + 1) s = .next t → exec i t = .next u →
    Reaches i.kind t (addressOf i t) pa' cca' → Predictable i.kind t (addressOf i t) pa' cca' →
    ((destOf i ≠ 0 ∧ u.readReg (destOf i) = 1#32) ∨ u.mem ≠ t.mem →
      ∀ x ∈ ts, coherentStoreInto ⟨k, va, pa, cca, LinkKind.nbytes k⟩ x = false) ∧
    (destOf i ≠ 0 → u.readReg (destOf i) = 0#32 → u.mem = t.mem)

/-! Invariants of every step. -/

/-- Every step keeps memory and text in canonical form and every listed byte at a physical address that exists
(log 8, log 9, log 13). -/
def Obligations.StepKeepsListsWf : Prop :=
  ∀ s t : State, ListsWf s → step s = .next t → ListsWf t

/-- The state after reset has that invariant. -/
def Obligations.ResetListsWf : Prop := ListsWf State.reset

/-- Every step keeps the link record one that a load-linked instruction can leave: its data size is that of its kind, and a
mixed sequence is an uncached one (10_state section 6). -/
def Obligations.StepKeepsLinkWf : Prop :=
  ∀ s t : State, LinkWf s → step s = .next t → LinkWf t

/-- The state after reset has that invariant. -/
def Obligations.ResetLinkWf : Prop := LinkWf State.reset

/-- No step changes the configuration (the bits `BE`, `XNP`, `EVA`, `ULS` among it), the mode or the program text
(00_scope section 4, 10_state sections 4 and 5, 20_memory section 10; logs 2 and 9). -/
def Obligations.StepKeepsConfigModeText : Prop :=
  ∀ s t : State, step s = .next t → t.cfg = s.cfg ∧ t.mode = s.mode ∧ t.text = s.text

/-- A step leaves the pc or advances it by 4, and only the processor's own turn advances it; so an even pc stays even
(10_state section 2; 92_eei_decisions D3, logs 11 and 32). -/
def Obligations.StepAdvancesPc : Prop :=
  ∀ s t : State, step s = .next t →
    ((t.pc = s.pc + 4#32 ∧ (s.schedule = [] ∨ ∃ ts, s.schedule = .processor :: ts)) ∨
      (t.pc = s.pc ∧ ∃ x ts, s.schedule = x :: ts ∧ x ≠ .processor)) ∧
    (pcEven s.pc = true → pcEven t.pc = true)

/-- What the launch premises of R69 and R191 give for a whole run: after any number of steps memory and text are still in
canonical form, the text is the one launched, and an instruction that stores within the ranges the premise names stores into
no word of the text (20_memory section 10, 70_reset_and_hazards section 1; 92_eei_decisions D11, log 9). -/
def Obligations.LaunchKeepsStoresOffTheText : Prop :=
  ∀ (s t : State) (stores : List (Word × Nat)) (n : Nat), Launch s stores →
    Host.Core.run Sys2Proof.core n s = .next t →
    cellsWf t.mem = true ∧ t.text = s.text ∧
    ∀ i : Instr, storesWithin stores i t → storesIntoText t (addressOf i t) i.kind.nbytes = false

/-- What reset leaves as far as the spec gives it: register 0 reads zero, no link, its two flags false (10_state section 10);
the other values are the model's (logs 3 to 9) and are not stated here. -/
def Obligations.ResetState : Prop :=
  State.reset.readReg 0 = 0#32 ∧ State.reset.link = none ∧ State.reset.linkBroken = false ∧
    State.reset.linkMixed = false
end

