-- ==== Sys2Proof/Laws/Memory.lean ====
section
/-! SUPPORT. The laws of the cell lists and of memory: a read after a write, a write leaves every other place alone, and
every operation keeps the canonical form and the bound on addresses. -/

namespace Sys2Proof.Machine

variable {α : Type}

@[simp] theorem cellsLookup_nil (a : Nat) : cellsLookup ([] : List (Nat × α)) a = none := rfl

@[simp] theorem cellsLookup_insert_self (m : List (Nat × α)) (a : Nat) (v : α) :
    cellsLookup (cellsInsert m a v) a = some v := by
  induction m with
  | nil => simp [cellsInsert, cellsLookup]
  | cons c rest ih =>
    obtain ⟨k, w⟩ := c
    rcases lt_trichotomy a k with h | rfl | h
    · simp [cellsInsert, cellsLookup, h]
    · simp [cellsInsert, cellsLookup]
    · simp [cellsInsert, cellsLookup, Nat.not_lt.mpr h.le, h.ne', ih]

@[simp] theorem cellsLookup_insert_ne (m : List (Nat × α)) (a b : Nat) (v : α) (hb : b ≠ a) :
    cellsLookup (cellsInsert m a v) b = cellsLookup m b := by
  induction m with
  | nil => simp [cellsInsert, cellsLookup, hb]
  | cons c rest ih =>
    obtain ⟨k, w⟩ := c
    rcases lt_trichotomy a k with h | rfl | h
    · simp [cellsInsert, cellsLookup, h, hb]
    · simp [cellsInsert, cellsLookup, hb]
    · simp [cellsInsert, cellsLookup, Nat.not_lt.mpr h.le, h.ne', ih]

/-- An insertion lists the new address and what was listed. -/
theorem mem_cellsInsert (m : List (Nat × α)) (a : Nat) (v : α) (c : Nat × α) (hc : c ∈ cellsInsert m a v) :
    c = (a, v) ∨ c ∈ m := by
  induction m with
  | nil => simpa [cellsInsert] using hc
  | cons d rest ih =>
    obtain ⟨k, w⟩ := d
    simp only [cellsInsert] at hc
    split at hc
    · simpa using hc
    · split at hc
      · rcases List.mem_cons.mp hc with h | h
        · exact .inl h
        · exact .inr (List.mem_cons_of_mem _ h)
      · rcases List.mem_cons.mp hc with h | h
        · exact .inr (by simp [h])
        · exact (ih h).imp_right (List.mem_cons_of_mem _)

/-- Inserting keeps the canonical form. -/
theorem cellsInsert_wf (m : List (Nat × α)) (a : Nat) (v : α) (h : cellsWf m = true) :
    cellsWf (cellsInsert m a v) = true := by
  induction m with
  | nil => simp [cellsInsert, cellsWf]
  | cons c rest ih =>
    obtain ⟨k, w⟩ := c
    simp only [cellsWf, Bool.and_eq_true, List.all_eq_true, decide_eq_true_eq] at h
    obtain ⟨hk, hr⟩ := h
    rcases lt_trichotomy a k with hlt | rfl | hgt
    · simp only [cellsInsert, hlt, if_true, cellsWf, Bool.and_eq_true, List.all_eq_true, decide_eq_true_eq]
      refine ⟨fun c hc => ?_, hk, hr⟩
      rcases List.mem_cons.mp hc with rfl | hc
      · exact hlt
      · exact hlt.trans (hk c hc)
    · simp only [cellsInsert, lt_irrefl, if_false, if_true, cellsWf, Bool.and_eq_true, List.all_eq_true,
        decide_eq_true_eq]
      exact ⟨hk, hr⟩
    · simp only [cellsInsert, Nat.not_lt.mpr hgt.le, hgt.ne', if_false, cellsWf, Bool.and_eq_true, List.all_eq_true,
        decide_eq_true_eq]
      refine ⟨fun c hc => ?_, ih hr⟩
      rcases mem_cellsInsert _ _ _ _ hc with rfl | hc
      · exact hgt
      · exact hk c hc

/-- Bytes written at rising addresses keep the canonical form. -/
theorem writeBytes_wf (m : Memory) (a : Nat) (bs : List Byte) (h : cellsWf m = true) :
    cellsWf (Memory.writeBytes m a bs) = true := by
  induction bs generalizing m a with
  | nil => exact h
  | cons b bs ih => exact ih _ _ (cellsInsert_wf _ _ _ h)

/-- Listed bytes keep the canonical form. -/
theorem writeCells_wf (m : Memory) (cells : List Host.Cell) (h : cellsWf m = true) :
    cellsWf (Memory.writeCells m cells) = true := by
  induction cells generalizing m with
  | nil => exact h
  | cons c cells ih => exact ih _ (cellsInsert_wf _ _ _ h)

/-- `MemWrite` keeps the canonical form. -/
theorem memWrite_wf {w : Nat} (be : Bool) (m : Memory) (pa : Nat) (n : Nat) (v : BitVec w) (h : cellsWf m = true) :
    cellsWf (memWrite be m pa n v) = true := writeBytes_wf _ _ _ h

/-- What `writeBytes` lists is what was listed or an address written to. -/
theorem mem_writeBytes (m : Memory) (a : Nat) (bs : List Byte) (c : Host.Cell)
    (hc : c ∈ Memory.writeBytes m a bs) : c ∈ m ∨ c.1 < a + bs.length := by
  induction bs generalizing m a with
  | nil => exact .inl hc
  | cons b bs ih =>
    rcases ih _ _ hc with h | h
    · rcases mem_cellsInsert _ _ _ _ h with rfl | h
      · exact .inr (by simp)
      · exact .inl h
    · exact .inr (by simp only [List.length_cons]; omega)

/-- What `writeCells` lists is what was listed or an address written to. -/
theorem mem_writeCells (m : Memory) (cells : List Host.Cell) (c : Host.Cell)
    (hc : c ∈ Memory.writeCells m cells) : c ∈ m ∨ c.1 ∈ cells.map Prod.fst := by
  induction cells generalizing m with
  | nil => exact .inl hc
  | cons d cells ih =>
    rcases ih _ hc with h | h
    · rcases mem_cellsInsert _ _ _ _ h with rfl | h
      · exact .inr (by simp)
      · exact .inl h
    · exact .inr (by simp only [List.map_cons, List.mem_cons]; exact .inr h)

/-- A byte outside those written reads as before. -/
theorem read_writeBytes_outside (m : Memory) (a : Nat) (bs : List Byte) (p : Nat)
    (h : p < a ∨ a + bs.length ≤ p) : (Memory.writeBytes m a bs).read p = m.read p := by
  induction bs generalizing m a with
  | nil => rfl
  | cons b bs ih =>
    simp only [List.length_cons] at h
    rw [Memory.writeBytes, ih _ _ (by omega)]
    exact cellsLookup_insert_ne _ _ _ _ (by omega)

/-- A byte written reads as written. -/
theorem read_writeBytes_inside (m : Memory) (a : Nat) (bs : List Byte) (j : Nat) (h : j < bs.length) :
    (Memory.writeBytes m a bs).read (a + j) = some bs[j] := by
  induction bs generalizing m a j with
  | nil => exact absurd h (Nat.not_lt_zero _)
  | cons b bs ih =>
    cases j with
    | zero =>
      rw [Memory.writeBytes, read_writeBytes_outside _ _ _ _ (by omega)]
      simp [Memory.read]
    | succ j =>
      rw [Memory.writeBytes, show a + (j + 1) = a + 1 + j by omega]
      exact ih _ _ j (by simpa using h)

@[simp] theorem dataBytes_length {w : Nat} (be : Bool) (n : Nat) (v : BitVec w) : (dataBytes be n v).length = n := by
  simp [dataBytes]

/-- Byte `i` of a datum (R52). -/
theorem dataBytes_getElem {w : Nat} (be : Bool) (n : Nat) (v : BitVec w) (i : Nat) (h : i < (dataBytes be n v).length) :
    (dataBytes be n v)[i] = v.extractLsb' (8 * (if be then n - 1 - i else i)) 8 := by
  simp [dataBytes]

/-- Reading bytes back: if each of `bs` reads at its place, together they read as `bs`. -/
theorem readBytes_of_read (m : Memory) (a : Nat) (bs : List Byte)
    (h : ∀ j, (hj : j < bs.length) → m.read (a + j) = some bs[j]) : m.readBytes a bs.length = some bs := by
  induction bs generalizing a with
  | nil => rfl
  | cons b bs ih =>
    have h0 : m.read a = some b := h 0 (Nat.succ_pos _)
    have hr : m.readBytes (a + 1) bs.length = some bs := by
      refine ih _ fun j hj => ?_
      have := h (j + 1) (by simpa using hj)
      rw [show a + 1 + j = a + (j + 1) by omega]
      simpa using this
    simp [Memory.readBytes, h0, hr]

/-- The bytes of a little-endian value, read as a number, from byte `k` up (R51). -/
theorem leValue_extract {w : Nat} (v : BitVec w) (n : Nat) : ∀ k,
    leValue ((List.range' k n).map fun i => v.extractLsb' (8 * i) 8) = (v.toNat / 256 ^ k) % 256 ^ n := by
  induction n with
  | zero => intro k; simp [leValue, Nat.mod_one]
  | succ n ih =>
    intro k
    simp only [List.range'_succ, List.map_cons, leValue, ih, BitVec.extractLsb'_toNat]
    rw [Nat.shiftRight_eq_div_pow, show 2 ^ (8 * k) = 256 ^ k by rw [Nat.pow_mul],
      show 256 ^ (k + 1) = 256 ^ k * 256 by rw [Nat.pow_succ], ← Nat.div_div_eq_div_mul,
      show 256 ^ (n + 1) = 256 * 256 ^ n by rw [Nat.pow_succ, Nat.mul_comm], Nat.mod_mul]

/-- The two byte orders are each other's reverse (R51, R52). -/
theorem dataBytes_reverse {w : Nat} (n : Nat) (v : BitVec w) : (dataBytes true n v).reverse = dataBytes false n v := by
  apply List.ext_getElem (by simp)
  intro j h1 h2
  rw [List.getElem_reverse, dataBytes_getElem, dataBytes_getElem]
  simp only [dataBytes_length, List.length_reverse] at *
  simp only [if_true, Bool.false_eq_true, if_false]
  congr 2
  omega

/-- `MemRead` of the bytes of a value is that value, in either byte order (R52). -/
theorem memRead_of_bytes (be : Bool) (n : Nat) (v : BitVec (8 * n)) (m : Memory) (pa : Nat)
    (h : ∀ j, (hj : j < (dataBytes be n v).length) → m.read (pa + j) = some (dataBytes be n v)[j]) :
    memRead be m pa n = some v := by
  have hb := readBytes_of_read m pa (dataBytes be n v) h
  rw [dataBytes_length] at hb
  have hv : leValue (dataBytes false n v) = v.toNat := by
    have hk := leValue_extract v n 0
    rw [Nat.pow_zero, Nat.div_one, Nat.mod_eq_of_lt (by have := v.isLt; rwa [Nat.pow_mul] at this)] at hk
    rw [← hk]
    simp [dataBytes, List.range_eq_range']
  cases be <;> simp [memRead, hb, dataBytes_reverse, hv]

end Sys2Proof.Machine
end

