-- ==== Sys2Proof/Laws/PerInstr.lean ====
section
/-! SUPPORT. Statements for all instructions, one lemma per constructor. -/

namespace Sys2Proof.Laws.OpcodeMatch

/-- The encoded word carries the literal bits of its format under the common mask, whatever the operands (R81 to R84, R89). -/
def Statement (i : Instr) : Prop := encode i &&& opcodeMask = i.kind.matchWord

theorem word_form (rt : Reg) (offset : BitVec 9) (rs : Reg) (a : BitVec 2) :
    encodeWordForm rt offset rs a &&& opcodeMask
      = 0b101001#6 ++ 0#11 ++ 0b1011#4 ++ 0#1 ++ a ++ 0#6 ++ 0b00#2 := by
  apply BitVec.eq_of_getLsbD_eq
  intro j hj
  simp only [encodeWordForm, opcodeMask, BitVec.getLsbD_and, BitVec.getLsbD_append]
  interval_cases j <;> simp

theorem pair_form (rt ru rs : Reg) (a : BitVec 2) :
    encodePairForm rt ru rs a &&& opcodeMask
      = 0b101001#6 ++ 0#11 ++ 0b1011#4 ++ 0#1 ++ a ++ 0#6 ++ 0b01#2 := by
  apply BitVec.eq_of_getLsbD_eq
  intro j hj
  simp only [encodePairForm, opcodeMask, BitVec.getLsbD_and, BitVec.getLsbD_append]
  interval_cases j <;> simp

theorem sc (rt : Reg) (offset : BitVec 9) (rs : Reg) : Statement (.sc rt offset rs) := word_form rt offset rs 0b01#2

theorem sce (rt : Reg) (offset : BitVec 9) (rs : Reg) : Statement (.sce rt offset rs) := word_form rt offset rs 0b10#2

theorem scwp (rt ru rs : Reg) : Statement (.scwp rt ru rs) := pair_form rt ru rs 0b01#2

theorem scwpe (rt ru rs : Reg) : Statement (.scwpe rt ru rs) := pair_form rt ru rs 0b10#2

end Sys2Proof.Laws.OpcodeMatch
end

