-- ==== Sys2Proof/Laws/State.lean ====
section
/-! SUPPORT. One lemma per field per update of State, so that no later proof unfolds a record update, and the lemmas of
reading and writing registers. -/

namespace Sys2Proof.Machine.State

variable (s : State)

@[simp] theorem writeReg_cfg (r : Reg) (v : Word) : (s.writeReg r v).cfg = s.cfg := rfl
@[simp] theorem writeReg_gpr (r : Reg) (v : Word) : (s.writeReg r v).gpr = if r = 0 then s.gpr else s.gpr.set r v := rfl
@[simp] theorem writeReg_pc (r : Reg) (v : Word) : (s.writeReg r v).pc = s.pc := rfl
@[simp] theorem writeReg_mode (r : Reg) (v : Word) : (s.writeReg r v).mode = s.mode := rfl
@[simp] theorem writeReg_llb (r : Reg) (v : Word) : (s.writeReg r v).llb = s.llb := rfl
@[simp] theorem writeReg_link (r : Reg) (v : Word) : (s.writeReg r v).link = s.link := rfl
@[simp] theorem writeReg_linkBroken (r : Reg) (v : Word) : (s.writeReg r v).linkBroken = s.linkBroken := rfl
@[simp] theorem writeReg_linkMixed (r : Reg) (v : Word) : (s.writeReg r v).linkMixed = s.linkMixed := rfl
@[simp] theorem writeReg_mem (r : Reg) (v : Word) : (s.writeReg r v).mem = s.mem := rfl
@[simp] theorem writeReg_text (r : Reg) (v : Word) : (s.writeReg r v).text = s.text := rfl
@[simp] theorem writeReg_schedule (r : Reg) (v : Word) : (s.writeReg r v).schedule = s.schedule := rfl
@[simp] theorem writeReg_draws (r : Reg) (v : Word) : (s.writeReg r v).draws = s.draws := rfl
@[simp] theorem writeReg_mayFail (r : Reg) (v : Word) : (s.writeReg r v).mayFail = s.mayFail := rfl
@[simp] theorem writeReg_span (r : Reg) (v : Word) : (s.writeReg r v).span = s.span := rfl

@[simp] theorem withMem_cfg (m : Memory) : (s.withMem m).cfg = s.cfg := rfl
@[simp] theorem withMem_gpr (m : Memory) : (s.withMem m).gpr = s.gpr := rfl
@[simp] theorem withMem_pc (m : Memory) : (s.withMem m).pc = s.pc := rfl
@[simp] theorem withMem_mode (m : Memory) : (s.withMem m).mode = s.mode := rfl
@[simp] theorem withMem_llb (m : Memory) : (s.withMem m).llb = s.llb := rfl
@[simp] theorem withMem_link (m : Memory) : (s.withMem m).link = s.link := rfl
@[simp] theorem withMem_linkBroken (m : Memory) : (s.withMem m).linkBroken = s.linkBroken := rfl
@[simp] theorem withMem_linkMixed (m : Memory) : (s.withMem m).linkMixed = s.linkMixed := rfl
@[simp] theorem withMem_mem (m : Memory) : (s.withMem m).mem = m := rfl
@[simp] theorem withMem_text (m : Memory) : (s.withMem m).text = s.text := rfl
@[simp] theorem withMem_schedule (m : Memory) : (s.withMem m).schedule = s.schedule := rfl
@[simp] theorem withMem_draws (m : Memory) : (s.withMem m).draws = s.draws := rfl
@[simp] theorem withMem_mayFail (m : Memory) : (s.withMem m).mayFail = s.mayFail := rfl
@[simp] theorem withMem_span (m : Memory) : (s.withMem m).span = s.span := rfl

@[simp] theorem advancePc_cfg : s.advancePc.cfg = s.cfg := rfl
@[simp] theorem advancePc_gpr : s.advancePc.gpr = s.gpr := rfl
@[simp] theorem advancePc_pc : s.advancePc.pc = s.pc + 4#32 := rfl
@[simp] theorem advancePc_mode : s.advancePc.mode = s.mode := rfl
@[simp] theorem advancePc_llb : s.advancePc.llb = s.llb := rfl
@[simp] theorem advancePc_link : s.advancePc.link = s.link := rfl
@[simp] theorem advancePc_linkBroken : s.advancePc.linkBroken = s.linkBroken := rfl
@[simp] theorem advancePc_linkMixed : s.advancePc.linkMixed = s.linkMixed := rfl
@[simp] theorem advancePc_mem : s.advancePc.mem = s.mem := rfl
@[simp] theorem advancePc_text : s.advancePc.text = s.text := rfl
@[simp] theorem advancePc_schedule : s.advancePc.schedule = s.schedule := rfl
@[simp] theorem advancePc_draws : s.advancePc.draws = s.draws := rfl
@[simp] theorem advancePc_mayFail : s.advancePc.mayFail = s.mayFail := rfl
@[simp] theorem advancePc_span : s.advancePc.span = s.span := rfl

@[simp] theorem countDraw_cfg (d : Bool) : (s.countDraw d).cfg = s.cfg := rfl
@[simp] theorem countDraw_gpr (d : Bool) : (s.countDraw d).gpr = s.gpr := rfl
@[simp] theorem countDraw_pc (d : Bool) : (s.countDraw d).pc = s.pc := rfl
@[simp] theorem countDraw_mode (d : Bool) : (s.countDraw d).mode = s.mode := rfl
@[simp] theorem countDraw_llb (d : Bool) : (s.countDraw d).llb = s.llb := rfl
@[simp] theorem countDraw_link (d : Bool) : (s.countDraw d).link = s.link := rfl
@[simp] theorem countDraw_linkBroken (d : Bool) : (s.countDraw d).linkBroken = s.linkBroken := rfl
@[simp] theorem countDraw_linkMixed (d : Bool) : (s.countDraw d).linkMixed = s.linkMixed := rfl
@[simp] theorem countDraw_mem (d : Bool) : (s.countDraw d).mem = s.mem := rfl
@[simp] theorem countDraw_text (d : Bool) : (s.countDraw d).text = s.text := rfl
@[simp] theorem countDraw_schedule (d : Bool) : (s.countDraw d).schedule = s.schedule := rfl
@[simp] theorem countDraw_draws (d : Bool) : (s.countDraw d).draws = if d then s.draws + 1 else s.draws := rfl
@[simp] theorem countDraw_mayFail (d : Bool) : (s.countDraw d).mayFail = s.mayFail := rfl
@[simp] theorem countDraw_span (d : Bool) : (s.countDraw d).span = s.span := rfl

@[simp] theorem withSchedule_cfg (ts : List Turn) : (s.withSchedule ts).cfg = s.cfg := rfl
@[simp] theorem withSchedule_gpr (ts : List Turn) : (s.withSchedule ts).gpr = s.gpr := rfl
@[simp] theorem withSchedule_pc (ts : List Turn) : (s.withSchedule ts).pc = s.pc := rfl
@[simp] theorem withSchedule_mode (ts : List Turn) : (s.withSchedule ts).mode = s.mode := rfl
@[simp] theorem withSchedule_llb (ts : List Turn) : (s.withSchedule ts).llb = s.llb := rfl
@[simp] theorem withSchedule_link (ts : List Turn) : (s.withSchedule ts).link = s.link := rfl
@[simp] theorem withSchedule_linkBroken (ts : List Turn) : (s.withSchedule ts).linkBroken = s.linkBroken := rfl
@[simp] theorem withSchedule_linkMixed (ts : List Turn) : (s.withSchedule ts).linkMixed = s.linkMixed := rfl
@[simp] theorem withSchedule_mem (ts : List Turn) : (s.withSchedule ts).mem = s.mem := rfl
@[simp] theorem withSchedule_text (ts : List Turn) : (s.withSchedule ts).text = s.text := rfl
@[simp] theorem withSchedule_schedule (ts : List Turn) : (s.withSchedule ts).schedule = ts := rfl
@[simp] theorem withSchedule_draws (ts : List Turn) : (s.withSchedule ts).draws = s.draws := rfl
@[simp] theorem withSchedule_mayFail (ts : List Turn) : (s.withSchedule ts).mayFail = s.mayFail := rfl
@[simp] theorem withSchedule_span (ts : List Turn) : (s.withSchedule ts).span = s.span := rfl

@[simp] theorem clearLink_cfg : s.clearLink.cfg = s.cfg := rfl
@[simp] theorem clearLink_gpr : s.clearLink.gpr = s.gpr := rfl
@[simp] theorem clearLink_pc : s.clearLink.pc = s.pc := rfl
@[simp] theorem clearLink_mode : s.clearLink.mode = s.mode := rfl
@[simp] theorem clearLink_llb : s.clearLink.llb = false := rfl
@[simp] theorem clearLink_link : s.clearLink.link = none := rfl
@[simp] theorem clearLink_linkBroken : s.clearLink.linkBroken = false := rfl
@[simp] theorem clearLink_linkMixed : s.clearLink.linkMixed = false := rfl
@[simp] theorem clearLink_mem : s.clearLink.mem = s.mem := rfl
@[simp] theorem clearLink_text : s.clearLink.text = s.text := rfl
@[simp] theorem clearLink_schedule : s.clearLink.schedule = s.schedule := rfl
@[simp] theorem clearLink_draws : s.clearLink.draws = s.draws := rfl
@[simp] theorem clearLink_mayFail : s.clearLink.mayFail = false := rfl
@[simp] theorem clearLink_span : s.clearLink.span = none := rfl

@[simp] theorem setLink_cfg (l : Link) : (s.setLink l).cfg = s.cfg := rfl
@[simp] theorem setLink_gpr (l : Link) : (s.setLink l).gpr = s.gpr := rfl
@[simp] theorem setLink_pc (l : Link) : (s.setLink l).pc = s.pc := rfl
@[simp] theorem setLink_mode (l : Link) : (s.setLink l).mode = s.mode := rfl
@[simp] theorem setLink_llb (l : Link) : (s.setLink l).llb = true := rfl
@[simp] theorem setLink_link (l : Link) : (s.setLink l).link = some l := rfl
@[simp] theorem setLink_linkBroken (l : Link) : (s.setLink l).linkBroken = false := rfl
@[simp] theorem setLink_linkMixed (l : Link) : (s.setLink l).linkMixed = false := rfl
@[simp] theorem setLink_mem (l : Link) : (s.setLink l).mem = s.mem := rfl
@[simp] theorem setLink_text (l : Link) : (s.setLink l).text = s.text := rfl
@[simp] theorem setLink_schedule (l : Link) : (s.setLink l).schedule = s.schedule := rfl
@[simp] theorem setLink_draws (l : Link) : (s.setLink l).draws = s.draws := rfl
@[simp] theorem setLink_mayFail (l : Link) : (s.setLink l).mayFail = false := rfl
@[simp] theorem setLink_span (l : Link) : (s.setLink l).span = s.span := rfl

@[simp] theorem raiseFlags_cfg (b m f : Bool) : (s.raiseFlags b m f).cfg = s.cfg := rfl
@[simp] theorem raiseFlags_gpr (b m f : Bool) : (s.raiseFlags b m f).gpr = s.gpr := rfl
@[simp] theorem raiseFlags_pc (b m f : Bool) : (s.raiseFlags b m f).pc = s.pc := rfl
@[simp] theorem raiseFlags_mode (b m f : Bool) : (s.raiseFlags b m f).mode = s.mode := rfl
@[simp] theorem raiseFlags_llb (b m f : Bool) : (s.raiseFlags b m f).llb = s.llb := rfl
@[simp] theorem raiseFlags_link (b m f : Bool) : (s.raiseFlags b m f).link = s.link := rfl
@[simp] theorem raiseFlags_linkBroken (b m f : Bool) : (s.raiseFlags b m f).linkBroken = (s.linkBroken || b) := rfl
@[simp] theorem raiseFlags_linkMixed (b m f : Bool) : (s.raiseFlags b m f).linkMixed = (s.linkMixed || m) := rfl
@[simp] theorem raiseFlags_mem (b m f : Bool) : (s.raiseFlags b m f).mem = s.mem := rfl
@[simp] theorem raiseFlags_text (b m f : Bool) : (s.raiseFlags b m f).text = s.text := rfl
@[simp] theorem raiseFlags_schedule (b m f : Bool) : (s.raiseFlags b m f).schedule = s.schedule := rfl
@[simp] theorem raiseFlags_draws (b m f : Bool) : (s.raiseFlags b m f).draws = s.draws := rfl
@[simp] theorem raiseFlags_mayFail (b m f : Bool) : (s.raiseFlags b m f).mayFail = (s.mayFail || f) := rfl
@[simp] theorem raiseFlags_span (b m f : Bool) : (s.raiseFlags b m f).span = s.span := rfl

@[simp] theorem withLlb_cfg (b : Bool) : (s.withLlb b).cfg = s.cfg := rfl
@[simp] theorem withLlb_gpr (b : Bool) : (s.withLlb b).gpr = s.gpr := rfl
@[simp] theorem withLlb_pc (b : Bool) : (s.withLlb b).pc = s.pc := rfl
@[simp] theorem withLlb_mode (b : Bool) : (s.withLlb b).mode = s.mode := rfl
@[simp] theorem withLlb_llb (b : Bool) : (s.withLlb b).llb = b := rfl
@[simp] theorem withLlb_link (b : Bool) : (s.withLlb b).link = s.link := rfl
@[simp] theorem withLlb_linkBroken (b : Bool) : (s.withLlb b).linkBroken = s.linkBroken := rfl
@[simp] theorem withLlb_linkMixed (b : Bool) : (s.withLlb b).linkMixed = s.linkMixed := rfl
@[simp] theorem withLlb_mem (b : Bool) : (s.withLlb b).mem = s.mem := rfl
@[simp] theorem withLlb_text (b : Bool) : (s.withLlb b).text = s.text := rfl
@[simp] theorem withLlb_schedule (b : Bool) : (s.withLlb b).schedule = s.schedule := rfl
@[simp] theorem withLlb_draws (b : Bool) : (s.withLlb b).draws = s.draws := rfl
@[simp] theorem withLlb_mayFail (b : Bool) : (s.withLlb b).mayFail = s.mayFail := rfl
@[simp] theorem withLlb_span (b : Bool) : (s.withLlb b).span = s.span := rfl

@[simp] theorem withSpan_cfg (sp : Option Span) : (s.withSpan sp).cfg = s.cfg := rfl
@[simp] theorem withSpan_gpr (sp : Option Span) : (s.withSpan sp).gpr = s.gpr := rfl
@[simp] theorem withSpan_pc (sp : Option Span) : (s.withSpan sp).pc = s.pc := rfl
@[simp] theorem withSpan_mode (sp : Option Span) : (s.withSpan sp).mode = s.mode := rfl
@[simp] theorem withSpan_llb (sp : Option Span) : (s.withSpan sp).llb = s.llb := rfl
@[simp] theorem withSpan_link (sp : Option Span) : (s.withSpan sp).link = s.link := rfl
@[simp] theorem withSpan_linkBroken (sp : Option Span) : (s.withSpan sp).linkBroken = s.linkBroken := rfl
@[simp] theorem withSpan_linkMixed (sp : Option Span) : (s.withSpan sp).linkMixed = s.linkMixed := rfl
@[simp] theorem withSpan_mem (sp : Option Span) : (s.withSpan sp).mem = s.mem := rfl
@[simp] theorem withSpan_text (sp : Option Span) : (s.withSpan sp).text = s.text := rfl
@[simp] theorem withSpan_schedule (sp : Option Span) : (s.withSpan sp).schedule = s.schedule := rfl
@[simp] theorem withSpan_draws (sp : Option Span) : (s.withSpan sp).draws = s.draws := rfl
@[simp] theorem withSpan_mayFail (sp : Option Span) : (s.withSpan sp).mayFail = s.mayFail := rfl
@[simp] theorem withSpan_span (sp : Option Span) : (s.withSpan sp).span = sp := rfl

/-! What 10_state does not count is not seen by a predicate of the state (R38). -/

@[simp] theorem withSchedule_arch (ts : List Turn) : (s.withSchedule ts).arch = s.arch := rfl
@[simp] theorem withSpan_arch (sp : Option Span) : (s.withSpan sp).arch = s.arch := rfl
@[simp] theorem countDraw_arch (d : Bool) : (s.countDraw d).arch = s.arch := rfl

/-- Register 0 reads as zero in every state (R21). -/
@[simp] theorem readReg_zero : s.readReg 0 = 0#32 := rfl

/-- Reading depends on the register file alone. -/
theorem readReg_congr {s t : State} (h : t.gpr = s.gpr) (r : Reg) : t.readReg r = s.readReg r := by
  simp [readReg, h]

theorem readReg_writeReg_self (r : Reg) (v : Word) (h : r ≠ 0) : (s.writeReg r v).readReg r = v := by
  simp [readReg, h]

theorem readReg_writeReg_ne (r q : Reg) (v : Word) (h : q ≠ r) : (s.writeReg r v).readReg q = s.readReg q := by
  have hv : r.val ≠ q.val := fun e => h (Fin.ext e.symm)
  by_cases hr : r = 0 <;> simp [readReg, hr, Vector.getElem_set_ne, hv]

/-- A write to register 0 is discarded (R21). -/
theorem writeReg_zero (v : Word) : s.writeReg 0 v = s := rfl

end Sys2Proof.Machine.State
end

