-- ==== Sys2Proof/Laws/StoreConditional.lean ====
section
/-! SUPPORT. One lemma for each shared operation of the store-conditionals: when the tests of R100 pass, and what its
commit leaves in each field. -/

namespace Sys2Proof.Machine

/-- The alignment test is divisibility by the access size, 4 or 8 (R55). -/
theorem misaligned_eq_false_iff (k : ScKind) (va : Word) :
    misaligned va k.nbytes = false ↔ va.toNat % k.nbytes = 0 := by
  have h3 : va.toNat &&& 3 = va.toNat % 4 := Nat.and_two_pow_sub_one_eq_mod va.toNat 2
  have h7 : va.toNat &&& 7 = va.toNat % 8 := Nat.and_two_pow_sub_one_eq_mod va.toNat 3
  cases k <;> simp [misaligned, ScKind.nbytes, BitVec.toNat_eq, h3, h7]

/-- Steps 1 to 3 of R100 pass. -/
theorem scAvailable_ok_iff (k : ScKind) (s : State) (u : Unit) :
    scAvailable k s = .ok u ↔
      (k.nbytes = 8 → s.cfg.xnp = false) ∧ (k.isEva = true → s.cfg.eva = true) ∧
        (k.isEva = true → cop0Usable s = true) := by
  unfold scAvailable
  cases k <;> cases s.cfg.xnp <;> cases s.cfg.eva <;> cases cop0Usable s <;> simp [ScKind.nbytes, ScKind.isEva]

/-- Steps 7, 9 and 10 of R100 pass. -/
theorem scAccess_ok_iff (k : ScKind) (va : Word) (pa : Nat) (cca : Cca) (s : State) (r : Nat × Cca) :
    scAccess k va pa cca s = .ok r ↔
      (pa, cca) = r ∧ pa + k.nbytes ≤ 2 ^ s.cfg.paBits ∧ ((cca = 2#3 ∨ cca = 7#3) → s.cfg.uls = true) ∧
        watchMatch s.cfg va k.nbytes = false ∧ busErrorAt s.cfg pa cca k.nbytes = false := by
  unfold scAccess
  cases hx : physExists s.cfg pa k.nbytes <;> cases hc : ccaUncached cca <;> cases hu : s.cfg.uls <;>
    cases hw : watchMatch s.cfg va k.nbytes <;> cases hb : busErrorAt s.cfg pa cca k.nbytes <;>
    simp_all [physExists, ccaUncached]

/-- THE TESTS OF R100: the instruction reaches its success decision exactly when `Reaches` holds, and then with the address
and attribute of the translation. -/
theorem scTarget_ok_iff (k : ScKind) (va : Word) (s : State) (pa : Nat) (cca : Cca) :
    scTarget k va s = .ok (pa, cca) ↔ Safety.Reaches k s va pa cca := by
  constructor
  · intro h
    unfold scTarget at h
    split at h
    · cases h
    · rename_i ha
      split at h
      · cases h
      · rename_i hm
        split at h
        · cases h
        · rename_i ht
          obtain ⟨he, hx, hc, hw, hb⟩ := (scAccess_ok_iff _ _ _ _ _ _).mp h
          cases he
          obtain ⟨h1, h2, h3⟩ := (scAvailable_ok_iff _ _ _).mp ha
          exact ⟨h1, h2, h3, (misaligned_eq_false_iff _ _).mp (by simpa using hm), ht, hx, hc, hw, hb⟩
  · intro h
    have ha := (scAvailable_ok_iff k s ()).mpr ⟨h.pairs, h.eva, h.cop0⟩
    have hm := (misaligned_eq_false_iff k va).mpr h.aligned
    have hx := (scAccess_ok_iff k va pa cca s (pa, cca)).mpr ⟨rfl, h.exists_, h.cached, h.noWatch, h.noBus⟩
    simp [scTarget, ha, hm, h.mapped, hx]

/-- `StoreConditional` with its tests passed. -/
theorem storeConditional_of_reaches {w : Nat} {k : ScKind} {s : State} {va : Word} {pa : Nat} {cca : Cca}
    (h : Safety.Reaches k s va pa cca) (rt : Reg) (datum : BitVec w) :
    storeConditional k rt va datum s = .next (scCommit k rt va pa cca datum s) := by
  simp [storeConditional, (scTarget_ok_iff _ _ _ _ _).mpr h]

/-- `StoreConditional` answers a next state only after its tests have passed. -/
theorem storeConditional_next {w : Nat} {k : ScKind} {s t : State} {va : Word} {rt : Reg} {datum : BitVec w}
    (h : storeConditional k rt va datum s = .next t) :
    ∃ pa cca, Safety.Reaches k s va pa cca ∧ t = scCommit k rt va pa cca datum s := by
  unfold storeConditional at h
  split at h
  · rename_i e _
    cases e <;> simp [Stop.outcome] at h
  · rename_i pa cca ht
    cases h
    exact ⟨pa, cca, (scTarget_ok_iff _ _ _ _ _).mp ht, rfl⟩

section Commit

variable {w : Nat} (k : ScKind) (rt : Reg) (va : Word) (pa : Nat) (cca : Cca) (datum : BitVec w) (s : State)

/-- The success bit of the store (R122). -/
def commitSuccess (s : State) (k : ScKind) (va : Word) (pa : Nat) (cca : Cca) : Bool :=
  (scVerdict s k va pa cca).success s.draws

@[simp] theorem scCommit_cfg : (scCommit k rt va pa cca datum s).cfg = s.cfg := rfl
@[simp] theorem scCommit_pc : (scCommit k rt va pa cca datum s).pc = s.pc + 4#32 := rfl
@[simp] theorem scCommit_mode : (scCommit k rt va pa cca datum s).mode = s.mode := rfl
@[simp] theorem scCommit_llb : (scCommit k rt va pa cca datum s).llb = false := rfl
@[simp] theorem scCommit_link : (scCommit k rt va pa cca datum s).link = none := rfl
@[simp] theorem scCommit_linkBroken : (scCommit k rt va pa cca datum s).linkBroken = false := rfl
@[simp] theorem scCommit_linkMixed : (scCommit k rt va pa cca datum s).linkMixed = false := rfl
@[simp] theorem scCommit_mayFail : (scCommit k rt va pa cca datum s).mayFail = false := rfl
@[simp] theorem scCommit_span : (scCommit k rt va pa cca datum s).span = none := rfl
@[simp] theorem scCommit_text : (scCommit k rt va pa cca datum s).text = s.text := rfl
@[simp] theorem scCommit_schedule : (scCommit k rt va pa cca datum s).schedule = s.schedule := rfl

@[simp] theorem scCommit_mem : (scCommit k rt va pa cca datum s).mem =
    if commitSuccess s k va pa cca then memWrite s.cfg.be s.mem pa k.nbytes datum else s.mem := rfl

@[simp] theorem scCommit_draws : (scCommit k rt va pa cca datum s).draws =
    if (scVerdict s k va pa cca).isDraw then s.draws + 1 else s.draws := rfl

theorem scCommit_gpr : (scCommit k rt va pa cca datum s).gpr =
    (s.writeReg rt (resultWord (commitSuccess s k va pa cca))).gpr := rfl

/-- THE COMMIT OF R100: everything it leaves, with the success bit of R122. -/
theorem scCommit_completed :
    Safety.Completed rt pa (dataBytes s.cfg.be k.nbytes datum) (commitSuccess s k va pa cca) s
      (scCommit k rt va pa cca datum s) := by
  refine ⟨?_, ?_, ?_, ?_, ?_, rfl, rfl, rfl, rfl, rfl, rfl, rfl, rfl, rfl, rfl, rfl⟩
  · rw [State.readReg_congr (scCommit_gpr _ _ _ _ _ _ _)]
    by_cases h : rt = 0
    · subst h; simp
    · simp [State.readReg_writeReg_self, h, resultWord]
  · intro r hr
    rw [State.readReg_congr (scCommit_gpr _ _ _ _ _ _ _), State.readReg_writeReg_ne _ _ _ _ hr]
  · intro h j hj
    simp only [scCommit_mem, h, if_true]
    exact read_writeBytes_inside _ _ _ _ hj
  · intro a ha
    simp only [scCommit_mem]
    split
    · exact read_writeBytes_outside _ _ _ _ ha
    · rfl
  · intro h
    simp [h]

end Commit

/-- The success function's test of the unpredictable conditions is `Predictable` (R136 to R139, R141). -/
theorem predictableResult_iff (s : State) (k : ScKind) (va : Word) (pa : Nat) (cca : Cca) :
    predictableResult s k va pa cca = true ↔ Safety.Predictable k s va pa cca := by
  constructor
  · intro h
    unfold predictableResult at h
    split at h
    · cases h
    · rename_i l hl
      simp only [linkMatches, Bool.and_eq_true, decide_eq_true_eq, Bool.not_eq_true'] at h
      obtain ⟨⟨⟨⟨⟨⟨h1, h2⟩, h3⟩, h4⟩, h5⟩, h6⟩, h7⟩ := h
      exact ⟨⟨l, hl, h1, h2, h3, h4⟩, h5, h6, h7⟩
  · rintro ⟨⟨l, hl, h1, h2, h3, h4⟩, h5, h6, h7⟩
    simp [predictableResult, linkMatches, hl, h1, h2, h3, h4, h5, h6, h7]

/-- Under the conditions of R136 to R139 and R141 the success bit is drawn (R140). -/
theorem scVerdict_of_not_predictable {k : ScKind} {s : State} {va : Word} {pa : Nat} {cca : Cca}
    (h : ¬ Safety.Predictable k s va pa cca) : scVerdict s k va pa cca = .drawn := by
  have hp : predictableResult s k va pa cca = false := by rw [← Bool.not_eq_true, predictableResult_iff]; exact h
  simp [scVerdict, hp]

/-- With a predictable result, `LLB = 0` or a broken link forces failure (R122). -/
theorem scVerdict_of_broken {k : ScKind} {s : State} {va : Word} {pa : Nat} {cca : Cca}
    (h : Safety.Predictable k s va pa cca) (hb : s.llb = false ∨ s.linkBroken = true) :
    scVerdict s k va pa cca = .forced false := by
  have hp := (predictableResult_iff s k va pa cca).mpr h
  rcases hb with hb | hb <;> simp [scVerdict, hp, hb]

/-- `Cop0Usable` is a function of the configuration and of the state that 10_state counts. -/
theorem cop0Usable_congr {s s' : State} (hc : s'.cfg = s.cfg) (ha : s'.arch = s.arch) :
    cop0Usable s' = cop0Usable s := by
  have hm : s'.mode = s.mode := congrArg ArchState.mode ha
  unfold cop0Usable
  rw [hc, hm, ha]

/-- Given by the mode it is a function of the configuration and the mode. -/
theorem cop0Usable_congr_byMode {s s' : State} {kernel user : Bool} (h : s.cfg.cop0 = .byMode kernel user)
    (hc : s'.cfg = s.cfg) (hm : s'.mode = s.mode) : cop0Usable s' = cop0Usable s := by
  simp [cop0Usable, hc, hm, h]

/-- `SameCop0` costs nothing for a form that is not EVA, nor where `Cop0Usable` is given by the mode. -/
theorem sameCop0_of_not_eva {k : ScKind} {s s' : State} (h : k.isEva = false) : Safety.SameCop0 k s s' := by
  intro hk; rw [h] at hk; cases hk

theorem sameCop0_of_byMode {k : ScKind} {s s' : State} {kernel user : Bool} (h : s.cfg.cop0 = .byMode kernel user)
    (hc : s'.cfg = s.cfg) (hm : s'.mode = s.mode) : Safety.SameCop0 k s s' :=
  fun _ => cop0Usable_congr_byMode h hc hm

/-- The tests of R100 read the configuration, the mode and the pc alone, and for an EVA form `Cop0Usable` of the state. -/
theorem scTarget_congr {k : ScKind} {va : Word} {s s' : State} (hc : s'.cfg = s.cfg) (hm : s'.mode = s.mode)
    (hp : s'.pc = s.pc) (hu : Safety.SameCop0 k s s') : scTarget k va s' = scTarget k va s := by
  have ha : (k.isEva && !cop0Usable s') = (k.isEva && !cop0Usable s) := by
    cases hk : k.isEva with
    | false => rfl
    | true => rw [hu hk]
  unfold scTarget scAvailable scAccess raise
  rw [ha, hc, hm, hp]

/-- So do the conditions under which they all pass. -/
theorem reaches_congr {k : ScKind} {va : Word} {pa : Nat} {cca : Cca} {s s' : State} (hc : s'.cfg = s.cfg)
    (hm : s'.mode = s.mode) (hp : s'.pc = s.pc) (hu : Safety.SameCop0 k s s') (h : Safety.Reaches k s va pa cca) :
    Safety.Reaches k s' va pa cca := by
  rw [← scTarget_ok_iff] at *
  rw [scTarget_congr hc hm hp hu]
  exact h

/-- A load-linked kind and its partner have one data size (R32, R120). -/
@[simp] theorem partner_nbytes (k : ScKind) : LinkKind.nbytes (partner k) = k.nbytes := by cases k <;> rfl

/-- Attributes 2 and 7 are the uncached ones (R64). -/
theorem ccaUncached_iff (cca : Cca) : ccaUncached cca = true ↔ cca = 2#3 ∨ cca = 7#3 := by simp [ccaUncached]

/-- A byte of the more significant of two words. -/
theorem append_high_byte (x y : BitVec 32) (n j : Nat) (hn : n = 8 * (4 + j)) :
    (x ++ y).extractLsb' n 8 = x.extractLsb' (8 * j) 8 := by
  subst hn
  apply BitVec.eq_of_getLsbD_eq
  intro i hi
  simp only [BitVec.getLsbD_extractLsb', BitVec.getLsbD_append, hi, decide_true, Bool.true_and]
  rw [if_neg (by omega)]
  congr 1
  omega

/-- A byte of the less significant of two words. -/
theorem append_low_byte (x y : BitVec 32) (j : Nat) (h : j < 4) :
    (x ++ y).extractLsb' (8 * j) 8 = y.extractLsb' (8 * j) 8 := by
  apply BitVec.eq_of_getLsbD_eq
  intro i hi
  simp only [BitVec.getLsbD_extractLsb', BitVec.getLsbD_append, hi, decide_true, Bool.true_and]
  rw [if_pos (by omega)]

/-- In either byte order the word of `rt` comes first in memory and the word of `ru` after it (R53). -/
theorem pairDatum_bytes (s : State) (rt ru : Reg) :
    dataBytes s.cfg.be 8 (pairDatum s rt ru) = dataBytes s.cfg.be 4 (s.readReg rt) ++ dataBytes s.cfg.be 4 (s.readReg ru) := by
  apply List.ext_getElem (by simp)
  intro j h1 h2
  rw [dataBytes_length] at h1
  rw [dataBytes_getElem, List.getElem_append]
  unfold pairDatum
  by_cases h : j < 4
  · rw [dif_pos (by simpa using h), dataBytes_getElem]
    cases s.cfg.be <;> simp only [if_true, Bool.false_eq_true, if_false]
    · exact append_low_byte _ _ j (by omega)
    · exact append_high_byte _ _ _ (4 - 1 - j) (by omega)
  · rw [dif_neg (by simpa using h), dataBytes_getElem]
    simp only [dataBytes_length]
    cases s.cfg.be <;> simp only [if_true, Bool.false_eq_true, if_false]
    · exact append_high_byte _ _ _ (j - 4) (by omega)
    · rw [show 8 - 1 - j = 4 - 1 - (j - 4) by omega]
      exact append_low_byte _ _ _ (by omega)

/-- A completed store-conditional is one decided by its success bit. -/
theorem decided_of_completed {rt : Reg} {pa : Nat} {bytes : List Byte} {success : Bool} {s t : State}
    (h : Safety.Completed rt pa bytes success s t) : Safety.Decided rt pa bytes success s t :=
  ⟨fun hr => h.result.trans (if_neg hr), h.written, h.kept, h.llb, h.others, h.elsewhere⟩

end Sys2Proof.Machine
end

