-- ==== Sys2Proof/Laws/Step.lean ====
section
/-! SUPPORT. What one step can do: an inversion lemma for each shared operation of the step, and the fields that events
leave alone. -/

namespace Sys2Proof.Machine

/-- An instruction answers a next state only by the commit of R100 on its own operands. -/
theorem exec_next {i : Instr} {s t : State} (h : exec i s = .next t) :
    ∃ (pa : Nat) (cca : Cca) (w : Nat) (datum : BitVec w),
      Safety.Reaches i.kind s (Safety.addressOf i s) pa cca ∧
        t = scCommit i.kind (Safety.destOf i) (Safety.addressOf i s) pa cca datum s := by
  cases i with
  | sc rt offset rs =>
    obtain ⟨pa, cca, hr, ht⟩ := storeConditional_next (show storeConditional .sc _ _ _ s = _ from h)
    exact ⟨pa, cca, 32, _, hr, ht⟩
  | sce rt offset rs =>
    obtain ⟨pa, cca, hr, ht⟩ := storeConditional_next (show storeConditional .sce _ _ _ s = _ from h)
    exact ⟨pa, cca, 32, _, hr, ht⟩
  | scwp rt ru rs =>
    obtain ⟨pa, cca, hr, ht⟩ := storeConditional_next (show storeConditional .scwp _ _ _ s = _ from h)
    exact ⟨pa, cca, 32 + 32, _, hr, ht⟩
  | scwpe rt ru rs =>
    obtain ⟨pa, cca, hr, ht⟩ := storeConditional_next (show storeConditional .scwpe _ _ _ s = _ from h)
    exact ⟨pa, cca, 32 + 32, _, hr, ht⟩

/-- The processor's turn answers a next state only by executing a decoded instruction. -/
theorem instructionStep_next {s t : State} (h : instructionStep s = .next t) :
    ∃ w i, fetch s = .word w ∧ decode s.cfg.strictX w = .ok i ∧ exec i s = .next t := by
  unfold instructionStep at h
  split at h <;> try cases h
  rename_i w hf
  unfold executeWord at h
  split at h <;> try cases h
  exact ⟨w, _, hf, ‹_›, h⟩

/-- An access that answers a next state touches existing addresses only, and is done. -/
theorem accessStep_next {own : Bool} {a : Access} {s t : State} (h : accessStep own a s = .next t) :
    (∀ p ∈ Access.addrs a, physExists s.cfg p 1 = true) ∧ t = applyAccess own a s := by
  unfold accessStep at h
  split at h <;> cases h
  rename_i hf
  exact ⟨by simpa using hf, rfl⟩

/-- What a step of another agent does (R152). -/
theorem environmentStep_next {e : EnvEvent} {s t : State} (h : environmentStep e s = .next t) :
    (∃ a, e = .access a ∧ (∀ p ∈ Access.addrs a, physExists s.cfg p 1 = true) ∧ t = applyAccess false a s) ∨
      (e = .cacheOp ∧ t = noteMayFail s) ∨ (e = .other ∧ t = s) := by
  cases e with
  | access a => exact .inl ⟨a, rfl, accessStep_next h⟩
  | cacheOp => cases h; exact .inr (.inl ⟨rfl, rfl⟩)
  | other => cases h; exact .inr (.inr ⟨rfl, rfl⟩)

/-- What the trace of an instruction the spec does not describe does (R2 (g)); `n` is the state with the instruction added
to the sequence's span. -/
theorem foreignStep_next {v : Word} {len : Nat} {e : ForeignEvent} {s t : State} (h : foreignStep v len e s = .next t) :
    (∃ a, e = .access a ∧ (∀ p ∈ Access.addrs a, physExists s.cfg p 1 = true) ∧
        t = applyAccess true a (noteInstruction v len s)) ∨
      (∃ k va pa cca, e = .loadLinked k va pa cca ∧
        t = (s.setLink ⟨k, va, pa, cca, LinkKind.nbytes k⟩).withSpan (some (spanWith none v len))) ∨
      ((e = .pref ∨ e = .cacheOp ∨ e = .exception) ∧ t = noteMayFail (noteInstruction v len s)) ∨
      (e = .eret ∧ t = ((noteInstruction v len s).raiseFlags true false false).withLlb false) ∨
      ((e = .eretnc ∨ e = .pause ∨ e = .other) ∧ t = noteInstruction v len s) := by
  cases e with
  | access a => exact .inl ⟨a, rfl, accessStep_next (s := noteInstruction v len s) h⟩
  | loadLinked k va pa cca =>
    simp only [foreignStep, loadLinkedStep] at h
    split at h <;> cases h
    exact .inr (.inl ⟨k, va, pa, cca, rfl, rfl⟩)
  | pref => cases h; exact .inr (.inr (.inl ⟨.inl rfl, rfl⟩))
  | cacheOp => cases h; exact .inr (.inr (.inl ⟨.inr (.inl rfl), rfl⟩))
  | exception => cases h; exact .inr (.inr (.inl ⟨.inr (.inr rfl), rfl⟩))
  | eret => cases h; exact .inr (.inr (.inr (.inl ⟨rfl, rfl⟩)))
  | eretnc => cases h; exact .inr (.inr (.inr (.inr ⟨.inl rfl, rfl⟩)))
  | pause =>
    simp only [foreignStep, pauseStep] at h
    split at h
    · split at h <;> cases h
      exact .inr (.inr (.inr (.inr ⟨.inr (.inl rfl), rfl⟩)))
    · cases h
  | other => cases h; exact .inr (.inr (.inr (.inr ⟨.inr (.inr rfl), rfl⟩)))

/-- Which turn a step is. -/
theorem step_cases {s t : State} (h : step s = .next t) :
    (s.schedule = [] ∧ instructionStep s = .next t) ∨
      (∃ ts, s.schedule = .processor :: ts ∧ instructionStep (s.withSchedule ts) = .next t) ∨
      (∃ v len e ts, s.schedule = .foreign v len e :: ts ∧ foreignStep v len e (s.withSchedule ts) = .next t) ∨
      (∃ e ts, s.schedule = .environment e :: ts ∧ environmentStep e (s.withSchedule ts) = .next t) := by
  unfold step at h
  split at h
  · exact .inl ⟨‹_›, h⟩
  · exact .inr (.inl ⟨_, ‹_›, h⟩)
  · exact .inr (.inr (.inl ⟨_, _, _, _, ‹_›, h⟩))
  · exact .inr (.inr (.inr ⟨_, _, ‹_›, h⟩))

section Events

variable (own : Bool) (a : Access) (s : State) (v : Word) (len : Nat)

@[simp] theorem applyAccess_cfg : (applyAccess own a s).cfg = s.cfg := by
  unfold applyAccess; split <;> rfl

@[simp] theorem applyAccess_gpr : (applyAccess own a s).gpr = s.gpr := by
  unfold applyAccess; split <;> rfl

@[simp] theorem applyAccess_pc : (applyAccess own a s).pc = s.pc := by
  unfold applyAccess; split <;> rfl

@[simp] theorem applyAccess_mode : (applyAccess own a s).mode = s.mode := by
  unfold applyAccess; split <;> rfl

@[simp] theorem applyAccess_llb : (applyAccess own a s).llb = s.llb := by
  unfold applyAccess; split <;> rfl

@[simp] theorem applyAccess_link : (applyAccess own a s).link = s.link := by
  unfold applyAccess; split <;> rfl

@[simp] theorem applyAccess_text : (applyAccess own a s).text = s.text := by
  unfold applyAccess; split <;> rfl

@[simp] theorem applyAccess_schedule : (applyAccess own a s).schedule = s.schedule := by
  unfold applyAccess; split <;> rfl

@[simp] theorem applyAccess_draws : (applyAccess own a s).draws = s.draws := by
  unfold applyAccess; split <;> rfl

@[simp] theorem applyAccess_span : (applyAccess own a s).span = s.span := by
  unfold applyAccess; split <;> rfl

@[simp] theorem applyAccess_mem : (applyAccess own a s).mem = Memory.writeCells s.mem (Access.cells a) := by
  unfold applyAccess; split <;> rfl

theorem applyAccess_linkBroken (l : Link) (h : s.link = some l) :
    (applyAccess own a s).linkBroken = (s.linkBroken || accessBreaks s.cfg own l a) := by
  simp [applyAccess, h]

theorem applyAccess_linkBroken_of_none (h : s.link = none) : (applyAccess own a s).linkBroken = s.linkBroken := by
  simp [applyAccess, h]

theorem applyAccess_linkMixed (l : Link) (h : s.link = some l) :
    (applyAccess own a s).linkMixed = (s.linkMixed || accessMixes s.cfg l a) := by
  simp [applyAccess, h]

theorem applyAccess_linkMixed_of_none (h : s.link = none) : (applyAccess own a s).linkMixed = s.linkMixed := by
  simp [applyAccess, h]

theorem applyAccess_mayFail (l : Link) (h : s.link = some l) :
    (applyAccess own a s).mayFail = (s.mayFail || accessMayFail s.cfg own l a) := by
  simp [applyAccess, h]

theorem applyAccess_mayFail_of_none (h : s.link = none) : (applyAccess own a s).mayFail = s.mayFail := by
  simp [applyAccess, h]

@[simp] theorem noteInstruction_cfg : (noteInstruction v len s).cfg = s.cfg := rfl
@[simp] theorem noteInstruction_gpr : (noteInstruction v len s).gpr = s.gpr := rfl
@[simp] theorem noteInstruction_pc : (noteInstruction v len s).pc = s.pc := rfl
@[simp] theorem noteInstruction_mode : (noteInstruction v len s).mode = s.mode := rfl
@[simp] theorem noteInstruction_llb : (noteInstruction v len s).llb = s.llb := rfl
@[simp] theorem noteInstruction_link : (noteInstruction v len s).link = s.link := rfl
@[simp] theorem noteInstruction_linkBroken : (noteInstruction v len s).linkBroken = s.linkBroken := rfl
@[simp] theorem noteInstruction_linkMixed : (noteInstruction v len s).linkMixed = s.linkMixed := rfl
@[simp] theorem noteInstruction_mem : (noteInstruction v len s).mem = s.mem := rfl
@[simp] theorem noteInstruction_text : (noteInstruction v len s).text = s.text := rfl
@[simp] theorem noteInstruction_schedule : (noteInstruction v len s).schedule = s.schedule := rfl
@[simp] theorem noteInstruction_draws : (noteInstruction v len s).draws = s.draws := rfl
@[simp] theorem noteInstruction_mayFail : (noteInstruction v len s).mayFail = s.mayFail := rfl

@[simp] theorem noteMayFail_cfg : (noteMayFail s).cfg = s.cfg := rfl
@[simp] theorem noteMayFail_gpr : (noteMayFail s).gpr = s.gpr := rfl
@[simp] theorem noteMayFail_pc : (noteMayFail s).pc = s.pc := rfl
@[simp] theorem noteMayFail_mode : (noteMayFail s).mode = s.mode := rfl
@[simp] theorem noteMayFail_llb : (noteMayFail s).llb = s.llb := rfl
@[simp] theorem noteMayFail_link : (noteMayFail s).link = s.link := rfl
@[simp] theorem noteMayFail_linkBroken : (noteMayFail s).linkBroken = s.linkBroken := by simp [noteMayFail]
@[simp] theorem noteMayFail_linkMixed : (noteMayFail s).linkMixed = s.linkMixed := by simp [noteMayFail]
@[simp] theorem noteMayFail_mem : (noteMayFail s).mem = s.mem := rfl
@[simp] theorem noteMayFail_text : (noteMayFail s).text = s.text := rfl
@[simp] theorem noteMayFail_schedule : (noteMayFail s).schedule = s.schedule := rfl
@[simp] theorem noteMayFail_draws : (noteMayFail s).draws = s.draws := rfl
@[simp] theorem noteMayFail_span : (noteMayFail s).span = s.span := rfl
@[simp] theorem noteMayFail_mayFail : (noteMayFail s).mayFail = (s.mayFail || s.link.isSome) := rfl

end Events

/-- An access whose addresses all exist is done. -/
theorem accessStep_of_exists {own : Bool} {a : Access} {s : State}
    (h : ∀ p ∈ Access.addrs a, physExists s.cfg p 1 = true) : accessStep own a s = .next (applyAccess own a s) := by
  unfold accessStep
  have hn : (Access.addrs a).find? (fun p => !physExists s.cfg p 1) = none := by simpa using h
  rw [hn]

/-- One more step of a run. -/
theorem run_succ {n : Nat} {s t : State} (h : Host.Core.run Sys2Proof.core (n + 1) s = .next t) :
    ∃ s', step s = .next s' ∧ Host.Core.run Sys2Proof.core n s' = .next t := by
  simp only [Host.Core.run] at h
  split at h
  · rename_i s' hs
    exact ⟨s', hs, h⟩
  · cases h
  · cases h

/-- A broken link stays broken through an access. -/
theorem applyAccess_keeps_broken (own : Bool) (a : Access) (s : State) (h : s.linkBroken = true) :
    (applyAccess own a s).linkBroken = true := by
  cases hl : s.link with
  | none => rw [applyAccess_linkBroken_of_none _ _ _ hl, h]
  | some l => rw [applyAccess_linkBroken _ _ _ l hl, h, Bool.true_or]

/-- A coherent store into the linked data breaks the link (R123). -/
theorem applyAccess_coherent_breaks (own : Bool) (cca : Cca) (cells : List Host.Cell) (s : State) (l : Link)
    (hl : s.link = some l) (hc : cells.any (fun c => inLinkedData l c.1) = true) :
    (applyAccess own (.coherentStore cca cells) s).linkBroken = true := by
  have hb : accessBreaks s.cfg own l (.coherentStore cca cells) = true := by
    simp only [accessBreaks, List.any_eq_true] at hc ⊢
    obtain ⟨c, hmem, hin⟩ := hc
    exact ⟨c, hmem, by simp [inBlock, hin]⟩
  rw [applyAccess_linkBroken _ _ _ l hl, hb, Bool.or_true]

/-- What one turn between a load-linked instruction and the store-conditional can do to the link: it keeps the record, mends
nothing, and breaks the link if it completes a coherent store into the linked data. -/
theorem between_step {s t : State} {x : Turn} {ts : List Turn} (hs : s.schedule = x :: ts)
    (hx : Safety.Between x = true) (h : step s = .next t) :
    t.schedule = ts ∧ t.link = s.link ∧ (s.linkBroken = true → t.linkBroken = true) ∧
      (∀ l, s.link = some l → Safety.coherentStoreInto l x = true → t.linkBroken = true) := by
  cases x with
  | processor => cases hx
  | environment e =>
    simp only [step, hs] at h
    rcases environmentStep_next h with ⟨a, rfl, -, rfl⟩ | ⟨rfl, rfl⟩ | ⟨rfl, rfl⟩
    · refine ⟨by simp, by simp, fun hb => applyAccess_keeps_broken _ _ _ hb, ?_⟩
      intro l hl hc
      cases a with
      | coherentStore cca cells => exact applyAccess_coherent_breaks _ _ _ _ l hl hc
      | load => cases hc
      | nonCoherentStore => cases hc
    all_goals exact ⟨by simp, by simp, fun hb => by simp [hb], fun l _ hc => by cases hc⟩
  | foreign v len e =>
    simp only [step, hs] at h
    rcases foreignStep_next h with ⟨a, rfl, -, rfl⟩ | ⟨k, va, pa, cca, rfl, rfl⟩ | ⟨he, rfl⟩ | ⟨rfl, rfl⟩ | ⟨he, rfl⟩
    · refine ⟨by simp, by simp, fun hb => applyAccess_keeps_broken _ _ _ hb, ?_⟩
      intro l hl hc
      cases a with
      | coherentStore cca cells => exact applyAccess_coherent_breaks _ _ _ _ l hl hc
      | load => cases hc
      | nonCoherentStore => cases hc
    · cases hx
    · refine ⟨by simp, by simp, fun hb => by simp [hb], fun l _ hc => ?_⟩
      rcases he with rfl | rfl | rfl <;> cases hc
    · exact ⟨by simp, by simp, fun _ => by simp, fun l _ hc => by cases hc⟩
    · refine ⟨by simp, by simp, fun hb => by simp [hb], fun l _ hc => ?_⟩
      rcases he with rfl | rfl | rfl <;> cases hc

/-- The same of any number of such turns. -/
theorem between_run (ts rest : List Turn) : ∀ s t : State, s.schedule = ts ++ rest →
    (∀ x ∈ ts, Safety.Between x = true) → Host.Core.run Sys2Proof.core ts.length s = .next t →
    t.schedule = rest ∧ t.link = s.link ∧ (s.linkBroken = true → t.linkBroken = true) ∧
      (∀ l, s.link = some l → (∃ x ∈ ts, Safety.coherentStoreInto l x = true) → t.linkBroken = true) := by
  induction ts with
  | nil =>
    intro s t hs _ h
    cases h
    exact ⟨hs, rfl, id, fun l _ ⟨x, hx, _⟩ => by cases hx⟩
  | cons x ts ih =>
    intro s t hs hb h
    obtain ⟨s', hstep, hrun⟩ := run_succ h
    obtain ⟨a, b, c, d⟩ := between_step hs (hb x (by simp)) hstep
    obtain ⟨a', b', c', d'⟩ := ih s' t a (fun y hy => hb y (by simp [hy])) hrun
    refine ⟨a', b'.trans b, fun h => c' (c h), ?_⟩
    rintro l hl ⟨y, hy, hc⟩
    rcases List.mem_cons.mp hy with rfl | hy
    · exact c' (d l hl hc)
    · exact d' l (b.trans hl) ⟨y, hy, hc⟩

end Sys2Proof.Machine
end

