-- ==== Sys2Proof/Tests/Slice0.lean ====
section
/-! SUPPORT. The model's own tests: expected results are those of spec/95_test_vectors.md, written out by hand from the
rules; and, for every statement of Certificates/Slice0/Obligations.lean that has hypotheses, a concrete witness of them. -/

namespace Sys2Proof.Tests

open Sys2Proof Sys2Proof.Machine Sys2Proof.Safety

/-! Helpers. -/

/-- The outcome is a next state with property `p`. -/
def after (o : Host.Outcome State Fault Refusal) (p : State → Bool) : Bool :=
  match o with
  | .next t => p t
  | .fault _ => false
  | .refused _ => false

/-- The outcome is that fault. -/
def faults (o : Host.Outcome State Fault Refusal) (f : Fault) : Bool :=
  match o with
  | .next _ => false
  | .fault g => g == f
  | .refused _ => false

/-- The outcome is that refusal. -/
def refuses (o : Host.Outcome State Fault Refusal) (r : Refusal) : Bool :=
  match o with
  | .next _ => false
  | .fault _ => false
  | .refused q => q == r

theorem next_of_after {o : Host.Outcome State Fault Refusal} {p : State → Bool} (h : after o p = true) :
    ∃ t, o = .next t ∧ p t = true := by
  cases o with
  | next t => exact ⟨t, rfl, h⟩
  | fault f => cases h
  | refused r => cases h

/-- "Link `k` on `a`" of 95_test_vectors. -/
def linkOn (k : LinkKind) (a : Nat) : Link := ⟨k, BitVec.ofNat 32 a, a, 3#3, LinkKind.nbytes k⟩

/-- The registers of the vectors: `x[4]`, `x[5]`, `x[6]`, `x[12]`, `x[14]`. -/
def regs : Vector Word 32 :=
  ((((State.reset.gpr.set 4 0x11223344#32).set 5 0x55667788#32).set 6 0x2000#32).set 12 0x1000#32).set 14 0x1234ABCD#32

/-- A start state of the vectors, with a link and, since a draw has no value, under `AssumeProgress` (vector SC-23). -/
def start (k : LinkKind) (a : Nat) : State :=
  { State.reset with
    pc := 0x400#32, gpr := regs, llb := true, link := some (linkOn k a)
    cfg := { Config.default with assumeProgress := true } }

/-- SC-3's start. -/
def scStart : State := start .ll 0x1000
def sceStart : State := start .lle 0x1000
def scwpStart : State := start .llwp 0x2000
def scwpeStart : State := start .llwpe 0x2000

/-- The same state under another configuration. -/
def reconf (s : State) (f : Config → Config) : State := { s with cfg := f s.cfg }

/-- The same state with another value in a register. -/
def withReg (s : State) (r : Reg) (v : Word) : State := s.writeReg r v

/-- The same state with turns to come. -/
def withTurns (s : State) (ts : List Turn) : State := s.withSchedule ts

/-- An uncached platform: every address translates to itself with attribute 2. -/
def uncachedPlatform (uls : Bool) (c : Config) : Config :=
  { c with uls := uls, translation := [⟨.kernel, 0#32, 0xFFFFFFFF#32, .mapped 0 2#3⟩] }

/-- An uncached sequence: SC-18's start. -/
def uncachedStart : State :=
  { reconf scStart (uncachedPlatform true) with link := some ⟨.ll, 0x1000#32, 0x1000, 2#3, 4⟩ }

def sc0 : Instr := .sc 14 0#9 12
def sce0 : Instr := .sce 14 0#9 12
def scwp0 : Instr := .scwp 4 5 6
def scwpe0 : Instr := .scwpe 4 5 6

/-! Well-formedness: an ill-formed term is refused (R86, R94). -/

theorem test_wf_refuses_offset_1 : (Instr.sc 14 0x001#9 12).wf = false := by decide
theorem test_wf_refuses_offset_minus_2 : (Instr.sce 14 0x1FE#9 12).wf = false := by decide
theorem test_wf_accepts_limits : (Instr.sc 14 0x100#9 12).wf = true ∧ (Instr.sce 31 0x0FC#9 0).wf = true := by decide

/-! Decoding, each word written out bit by bit (95_test_vectors section 2.1). -/

/-- `sc $14, -256($12)` and `sc $14, 252($12)`. -/
theorem test_decode_sc :
    decode false 0b10100101110011001101100100000000#32 = .ok (.sc 14 (BitVec.ofInt 9 (-256)) 12) ∧
    decode false 0b10100101110011000101100111111100#32 = .ok (.sc 14 252#9 12) := ⟨rfl, rfl⟩

/-- `sce $2, -8($3)`. -/
theorem test_decode_sce : decode false 0b10100100010000111101101011111000#32 = .ok (.sce 2 (BitVec.ofInt 9 (-8)) 3) := rfl

/-- `scwp $4, $5, ($6)` with the `x` bits 0 and 1, and 1 under `StrictX`. -/
theorem test_decode_scwp :
    decode false 0b10100100100001100101100100101001#32 = .ok (.scwp 4 5 6) ∧
    decode false 0b10100100100001101101100100101101#32 = .ok (.scwp 4 5 6) ∧
    decode true 0b10100100100001101101100100101101#32 = .error .nonzeroX := ⟨rfl, rfl, rfl⟩

/-- `scwpe $10, $11, ($8)`. -/
theorem test_decode_scwpe : decode false 0b10100101010010000101101001011001#32 = .ok (.scwpe 10 11 8) := rfl

/-- The refused neighbours of section 2.1. -/
theorem test_decode_refuses :
    [0xA5CC5902#32, 0xA5CC5903#32, 0xA5CC5800#32, 0xA5CC5B00#32, 0xA5CC5D00#32, 0xA5CC5100#32, 0xA1CC5900#32,
      0x00000000#32].all (fun w => match decode false w with | .ok _ => false | .error u => u == .notDescribed) = true := by
  decide

/-- Words of section 2.1, encoded. -/
theorem test_encode :
    encode (.sc 14 (BitVec.ofInt 9 (-4)) 12) = 0xA5CCD9FC#32 ∧ encode (.sce 31 252#9 31) = 0xA7FF5AFC#32 ∧
    encode (.scwp 14 15 12) = 0xA5CC5979#32 ∧ encode (.scwpe 4 5 6) = 0xA4865A29#32 := by decide

/-- The assembler forms of R93. -/
theorem test_asm : Instr.asm (.sc 14 (BitVec.ofInt 9 (-4)) 12) = "sc $14, -4($12)" ∧
    Instr.asm (.scwp 4 5 6) = "scwp $4, $5, ($6)" := by decide

/-! One step each (95_test_vectors sections 2.2 to 2.5). -/

/-- SC-3 and SC-4. -/
theorem test_sc_bytes :
    after (step (scStart.withFetchWord 32 0xA5CC5900)) (fun t =>
      t.mem == [(0x1000, 0xCD#8), (0x1001, 0xAB#8), (0x1002, 0x34#8), (0x1003, 0x12#8)] && t.readReg 14 == 1#32 &&
        !t.llb && t.link.isNone && t.pc == 0x404#32) = true ∧
    after (step ((reconf scStart (fun c => { c with be := true })).withFetchWord 32 0xA5CC5900)) (fun t =>
      t.mem == [(0x1000, 0x12#8), (0x1001, 0x34#8), (0x1002, 0xAB#8), (0x1003, 0xCD#8)]) = true := by decide

/-- SC-5 (broken link), SC-9 (misaligned), SC-12 (the address wraps), SC-14 (`rt = rs`). -/
theorem test_sc_corners :
    after (exec sc0 { scStart with linkBroken := true }) (fun t =>
      t.mem == [] && t.readReg 14 == 0#32 && !t.llb && t.pc == 0x404#32) = true ∧
    faults (exec sc0 (withReg scStart 12 0x1002#32)) (.raised (.addressErrorStore 0x1002#32) 0x400#32) = true ∧
    after (exec (.sc 14 4#9 12) (withReg (start .ll 0) 12 0xFFFFFFFC#32)) (fun t =>
      t.mem.read 0 == some 0xCD#8) = true ∧
    after (exec (.sc 12 0#9 12) scStart) (fun t =>
      t.mem == [(0x1000, 0x00#8), (0x1001, 0x10#8), (0x1002, 0x00#8), (0x1003, 0x00#8)] &&
        t.readReg 12 == 1#32) = true := by decide

/-- SCE-1. -/
theorem test_sce_stores :
    after (step (sceStart.withFetchWord 32 0xA5CC5A00)) (fun t =>
      t.mem.read 0x1000 == some 0xCD#8 && t.readReg 14 == 1#32 && !t.llb && t.pc == 0x404#32) = true := by decide

/-- SCE-2 (EVA absent, and misaligned) and SCE-3 (user mode). -/
theorem test_sce_traps :
    faults (exec sce0 (withReg (reconf sceStart (fun c => { c with eva := false })) 12 0x1001#32))
      (.raised .reservedInstruction 0x400#32) = true ∧
    faults (exec sce0 { sceStart with mode := .user }) (.raised (.coprocessorUnusable 0) 0x400#32) = true := by decide

/-- SCWP-1, SCWP-2. -/
theorem test_scwp_bytes :
    after (step (scwpStart.withFetchWord 32 0xA4865929)) (fun t =>
      t.mem == [(0x2000, 0x44#8), (0x2001, 0x33#8), (0x2002, 0x22#8), (0x2003, 0x11#8), (0x2004, 0x88#8),
        (0x2005, 0x77#8), (0x2006, 0x66#8), (0x2007, 0x55#8)] && t.readReg 4 == 1#32 &&
        t.readReg 5 == 0x55667788#32) = true ∧
    after (exec scwp0 (reconf scwpStart (fun c => { c with be := true }))) (fun t =>
      t.mem == [(0x2000, 0x11#8), (0x2001, 0x22#8), (0x2002, 0x33#8), (0x2003, 0x44#8), (0x2004, 0x55#8),
        (0x2005, 0x66#8), (0x2006, 0x77#8), (0x2007, 0x88#8)]) = true := by decide

/-- SCWP-4 and SCWP-5, at the same misaligned address. -/
theorem test_scwp_traps :
    faults (exec scwp0 (withReg (reconf scwpStart (fun c => { c with xnp := true })) 6 0x2004#32))
      (.raised .reservedInstruction 0x400#32) = true ∧
    faults (exec scwp0 (withReg scwpStart 6 0x2004#32)) (.raised (.addressErrorStore 0x2004#32) 0x400#32) = true := by
  decide

/-- SCWPE-1, with the registers of SCWP-1. -/
theorem test_scwpe_stores :
    after (step ((reconf scwpeStart (fun c => { c with be := true })).withFetchWord 32 0xA4865A29)) (fun t =>
      t.mem.read 0x2000 == some 0x11#8 && t.mem.read 0x2007 == some 0x88#8 && t.readReg 4 == 1#32 && !t.llb) = true := by
  decide

/-- SCWPE-4 and SCWPE-5. -/
theorem test_scwpe_traps :
    faults (exec scwpe0 { scwpeStart with mode := .user }) (.raised (.coprocessorUnusable 0) 0x400#32) = true ∧
    faults (exec scwpe0 (withReg scwpeStart 6 0x2001#32)) (.raised (.addressErrorStore 0x2001#32) 0x400#32) = true := by
  decide

/-- ENV-1 and ENV-4: another agent's coherent store, and a load of this processor. -/
theorem test_environment :
    after (step (withTurns scStart [.environment (.access (.coherentStore 3#3 [(0x1002, 0x99#8)]))])) (fun t =>
      t.linkBroken && t.mem == [(0x1002, 0x99#8)] && t.llb) = true ∧
    after (step (withTurns scStart [.foreign 0x3FC#32 4 (.access (.load 3#3 [0x1000]))])) (fun t =>
      !t.linkBroken && !t.mayFail && t.llb) = true := by decide

/-- A free value stays free: without `AssumeProgress` the result is the next draw (SC-1 and SC-2). -/
theorem test_draw : after (exec sc0 { scStart with cfg := Config.default }) (fun t => t.draws == 1 && !t.llb) = true := by
  decide

/-- The four words of section 1.1, read as the opcode table numbers them, and run as the first instruction after reset. -/
theorem test_table_words :
    decodeTableWord 32 0xA4005900 = some (.sc 0 0#9 0) ∧ decodeTableWord 32 0xA4005A00 = some (.sce 0 0#9 0) ∧
    decodeTableWord 32 0xA4005901 = some (.scwp 0 0 0) ∧ decodeTableWord 32 0xA4005A01 = some (.scwpe 0 0 0) ∧
    decodeTableWord 32 0 = none ∧
    ([0xA4005900, 0xA4005A00, 0xA4005901, 0xA4005A01].all fun w =>
      after (step (State.reset.withFetchWord 32 w)) (fun t => t.pc == 4#32)) = true := by decide

/-- The first step after reset runs a placed word, and with nothing placed the machine is stuck (log 9). -/
theorem test_reset :
    after (step (State.reset.withFetchWord 32 0xA4005900)) (fun t => t.pc == 4#32) = true ∧
    faults (step State.reset) (.stuck 0#32) = true := by decide

/-- The platform of the vectors meets R8. -/
theorem blocksWf_start : BlocksWf scStart.cfg := by
  intro l hn ha _ _
  have hb : l.nbytes = 4 ∨ l.nbytes = 8 := by rw [hn]; cases l.kind <;> simp [LinkKind.nbytes]
  have hr : blockOf scStart.cfg l.pa = [⟨l.pa / 8 * 8, l.pa / 8 * 8 + 7⟩] := rfl
  have hp : scStart.cfg.minPageSize = 8 := rfl
  simp only [blockWf, hr, hp, rangesRise, PhysRange.holds, List.map_cons, List.map_nil, List.sum_cons, List.sum_nil, List.all_nil,
    List.any_cons, List.any_nil, Bool.or_false, Bool.and_eq_true, decide_eq_true_eq, List.all_eq_true, List.mem_range,
    and_true, PhysRange.size]
  refine ⟨⟨⟨by omega, by omega⟩, by omega⟩, fun j hj => ?_⟩
  rcases hb with hb | hb <;> rw [hb] at ha hj <;> omega

/-- A launch state of R191 and R198 whose program stores into the word at `0x1000`, and the end of its run. -/
theorem test_launch_and_end :
    Launch (scStart.withFetchWord 32 0xA5CC5900) [(0x1000#32, 4)] ∧ Ended { scStart with pc := 0xFFFFFFFE#32 } :=
  ⟨⟨⟨_, rfl⟩, rfl, by decide, by decide, by decide, blocksWf_start, by decide⟩, rfl⟩

/-- A store that overlaps the last byte of the text, or its first, is one into the text; one beside it is not (R69). -/
theorem test_stores_into_text :
    storesIntoText (scStart.withFetchWord 32 0) 0x403#32 4 = true ∧ storesIntoText (scStart.withFetchWord 32 0) 0x3FD#32 4 = true ∧
    storesIntoText (scStart.withFetchWord 32 0) 0x404#32 4 = false ∧ storesIntoText (scStart.withFetchWord 32 0) 0x3FC#32 4 = false := by
  decide

/-- "An intact matching link on address A" (R191) is met by the start of the vectors. -/
theorem test_intact_link : IntactLink .sc scStart 0x1000#32 := ⟨rfl, rfl, rfl, _, _, rfl, rfl⟩

/-- A block of two pieces given by an entry of `BlockOf` (R8). -/
theorem test_block_entry :
    let c : Config := { Config.default with blocks := [⟨0x1000, 0x1007, [⟨0x1000, 0x1007⟩, ⟨0x2000, 0x2003⟩]⟩], minPageSize := 16 }
    blockWf c (linkOn .llwp 0x1000) = true ∧ inBlock c (linkOn .ll 0x1004) 0x2003 = true ∧
      inBlock c (linkOn .ll 0x1004) 0x2004 = false ∧ inBlock c (linkOn .ll 0x1008) 0x2003 = false := by decide

/-- R127 and 90_conflicts C6: an exception and its ERETNC break nothing, and leave a result that is drawn even under
`AssumeProgress`. -/
theorem test_exception_and_eretnc :
    after (Host.Core.run Sys2Proof.core 2 (withTurns scStart [.foreign 0x3F8#32 4 .exception, .foreign 0x3FC#32 4 .eretnc]))
      (fun t => t.llb && !t.linkBroken && after (exec sc0 t) (fun u => u.draws == 1)) = true := by decide

/-- A step with no fault and no refusal. -/
theorem test_safe_for : SafeFor 1 (withTurns scStart [.environment .other]) := ⟨_, rfl⟩

/-! Witnesses: for each statement with hypotheses, a concrete state and operands that meet all of them. -/

/-- The tests of R100 pass (from the model's own tests of them). -/
theorem reaches_of {k : ScKind} {s : State} {va : Word} {pa : Nat} {cca : Cca} (h : scTarget k va s = .ok (pa, cca)) :
    Reaches k s va pa cca := (scTarget_ok_iff k va s pa cca).mp h

theorem predictable_of {k : ScKind} {s : State} {va : Word} {pa : Nat} {cca : Cca}
    (h : predictableResult s k va pa cca = true) : Predictable k s va pa cca := (predictableResult_iff s k va pa cca).mp h

theorem not_predictable_of {k : ScKind} {s : State} {va : Word} {pa : Nat} {cca : Cca}
    (h : predictableResult s k va pa cca = false) : ¬ Predictable k s va pa cca := by
  rw [← predictableResult_iff, h]
  decide

/-- DecodeOfEncode: the two ends of the offset, and the pair forms. -/
theorem witness_DecodeOfEncode :
    (Instr.sc 31 0x100#9 0).wf = true ∧ (Instr.sce 0 0x0FC#9 31).wf = true ∧ (Instr.scwp 0 31 0).wf = true ∧
      (Instr.scwpe 31 0 31).wf = true := by decide

/-- EncodeOfDecode: a word form, and a pair word with both `x` bits set. -/
theorem witness_EncodeOfDecode :
    decode true 0xA7FFD900#32 = .ok (.sc 31 0x100#9 31) ∧ decode false 0xA7FFDAFD#32 = .ok (.scwpe 31 31 31) := ⟨rfl, rfl⟩

/-- DecodeByMaskAndMatch: a word for each of the five clauses. -/
theorem witness_DecodeByMaskAndMatch :
    0xA7FFD900#32 &&& 0xFC007F03#32 = 0xA4005900#32 ∧ 0xA7FF5AFC#32 &&& 0xFC007F03#32 = 0xA4005A00#32 ∧
    0xA486D92D#32 &&& 0xFC007F03#32 = 0xA4005901#32 ∧ 0xA7FFDAFD#32 &&& 0xFC007F03#32 = 0xA4005A01#32 ∧
    0xA5CC5902#32 &&& 0xFC007F03#32 ≠ 0xA4005900#32 ∧ 0xA5CC5902#32 &&& 0xFC007F03#32 ≠ 0xA4005A00#32 ∧
    0xA5CC5902#32 &&& 0xFC007F03#32 ≠ 0xA4005901#32 ∧ 0xA5CC5902#32 &&& 0xFC007F03#32 ≠ 0xA4005A01#32 := by decide

/-- RegisterOperands: both clauses with a hypothesis, at registers 0 and 31. -/
theorem witness_RegisterOperands :
    decode false 0xA4005900#32 = .ok (.sc 0 0#9 0) ∧ decode false 0xA7FF5AFC#32 = .ok (.sce 31 252#9 31) ∧
    decode false 0xA4005901#32 = .ok (.scwp 0 0 0) ∧ decode false 0xA7FFDAFD#32 = .ok (.scwpe 31 31 31) := ⟨rfl, rfl, rfl, rfl⟩

/-- PairIgnoresXBits: two words that differ in both `x` bits, and the two cases of `StrictX`. -/
theorem witness_PairIgnoresXBits :
    0xA4865929#32 &&& ~~~xMask = 0xA486D92D#32 &&& ~~~xMask ∧ 0xA4865929#32 &&& opcodeMask = ScKind.matchWord .scwp ∧
    0xA7FFDAFD#32 &&& opcodeMask = ScKind.matchWord .scwpe ∧ 0xA4865929#32 &&& xMask = 0#32 ∧
    0xA486D92D#32 &&& xMask ≠ 0#32 ∧ decode false 0xA486D92D#32 = .ok (.scwp 4 5 6) := by
  refine ⟨?_, ?_, ?_, ?_, ?_, rfl⟩ <;> decide

/-- A state that stands at word `w`. -/
def standing (w : InstrWord) : State := { scStart with text := [(0x400, w)] }

/-- StepRunsDecodedInstruction, with an empty schedule and with a processor's turn. -/
theorem witness_StepRunsDecodedInstruction :
    pcEven (standing 0xA5CC5900#32).pc = true ∧ cellsLookup (standing 0xA5CC5900#32).text 0x400 = some 0xA5CC5900#32 ∧
    decode (standing 0xA5CC5900#32).cfg.strictX 0xA5CC5900#32 = .ok sc0 ∧ (standing 0xA5CC5900#32).schedule = [] ∧
    (withTurns (standing 0xA5CC5900#32) [.processor]).schedule = [.processor] := ⟨rfl, rfl, rfl, rfl, rfl⟩

/-- StepStopsOutsideTheText: an odd pc, an undescribed word, a pair word with both `x` bits set, `EndPc`, and an address that
is neither; with a processor's turn (the state above has an empty schedule). -/
theorem witness_StepStopsOutsideTheText :
    (withTurns (standing 0xA486D92D#32) [.processor]).schedule = [.processor] ∧
    cellsLookup (standing 0xA486D92D#32).text 0x400 = some 0xA486D92D#32 ∧
    0xA486D92D#32 &&& opcodeMask = ScKind.matchWord .scwp ∧
    (reconf (standing 0xA486D92D#32) (fun c => { c with strictX := true })).cfg.strictX = true ∧
    0xA486D92D#32 &&& xMask ≠ 0#32 ∧
    pcEven 0x401#32 = false ∧ pcEven 0x400#32 = true ∧
    cellsLookup (standing 0xA5CC5902#32).text 0x400 = some 0xA5CC5902#32 ∧
    decode false 0xA5CC5902#32 = .error .notDescribed ∧
    cellsLookup (standing 0#32).text 0xFFFFFFFE = none ∧ pcEven (standing 0#32).cfg.endPc = true ∧
    (standing 0#32).cfg.endPc = 0xFFFFFFFE#32 ∧ cellsLookup (standing 0#32).text 0x404 = none := by
  refine ⟨rfl, rfl, ?_, rfl, ?_, ?_, ?_, rfl, rfl, ?_, ?_, rfl, ?_⟩ <;> decide

/-- AbsentFeatureTraps: the four words, with the feature absent. -/
theorem witness_AbsentFeatureTraps :
    (reconf (standing 0xA4865929#32) (fun c => { c with xnp := true })).cfg.xnp = true ∧
    (reconf (standing 0xA5CC5A00#32) (fun c => { c with eva := false })).cfg.eva = false ∧
    (standing 0xA4865929#32).schedule = [] ∧ (standing 0xA4865929#32).cfg.strictX = false ∧
    cellsLookup (standing 0xA4865929#32).text 0x400 = some 0xA4865929#32 ∧
    cellsLookup (standing 0xA5CC5A00#32).text 0x400 = some 0xA5CC5A00#32 ∧
    0xA4865929#32 &&& opcodeMask = ScKind.matchWord .scwp ∧ 0xA4865A29#32 &&& opcodeMask = ScKind.matchWord .scwpe ∧
    0xA5CC5A00#32 &&& opcodeMask = ScKind.matchWord .sce := by
  refine ⟨rfl, rfl, rfl, rfl, rfl, rfl, ?_, ?_, ?_⟩ <;> decide

/-- WordFormsComplete: both clauses, SC at the last word of the address space (offset 252)
and SCE from the vectors. -/
theorem witness_WordFormsComplete :
    Reaches .sc (withReg scStart 12 0xFFFFFF00#32) ((withReg scStart 12 0xFFFFFF00#32).readReg 12 + (252#9).signExtend 32)
      0xFFFFFFFC 3#3 ∧
    Reaches .sce sceStart (sceStart.readReg 12 + (0#9).signExtend 32) 0x1000 3#3 := ⟨reaches_of rfl, reaches_of rfl⟩

/-- PairFormsComplete: both clauses, SCWP at the last double word of the address space. -/
theorem witness_PairFormsComplete :
    Reaches .scwp (withReg scwpStart 6 0xFFFFFFF8#32) ((withReg scwpStart 6 0xFFFFFFF8#32).readReg 6) 0xFFFFFFF8 3#3 ∧
    Reaches .scwpe scwpeStart (scwpeStart.readReg 6) 0x2000 3#3 := ⟨reaches_of rfl, reaches_of rfl⟩

theorem reaches_sc : Reaches sc0.kind scStart (addressOf sc0 scStart) 0x1000 3#3 := reaches_of rfl
theorem reaches_sce : Reaches sce0.kind sceStart (addressOf sce0 sceStart) 0x1000 3#3 := reaches_of rfl
theorem reaches_scwp : Reaches scwp0.kind scwpStart (addressOf scwp0 scwpStart) 0x2000 3#3 := reaches_of rfl
theorem reaches_scwpe : Reaches scwpe0.kind scwpeStart (addressOf scwpe0 scwpeStart) 0x2000 3#3 := reaches_of rfl

/-- CompletesExactlyWhenReached: an instruction that answers a next state, and one that does not. -/
theorem witness_CompletesExactlyWhenReached :
    (∃ t, exec sc0 scStart = .next t) ∧ Reaches sc0.kind scStart (addressOf sc0 scStart) 0x1000 3#3 ∧
    faults (exec sc0 (withReg scStart 12 0x1001#32)) (.raised (.addressErrorStore 0x1001#32) 0x400#32) = true :=
  ⟨⟨_, rfl⟩, reaches_sc, by decide⟩

/-- ResultTellsTheWrite: a store that is made and one that is not. -/
theorem witness_ResultTellsTheWrite :
    destOf sc0 ≠ 0 ∧ Reaches sc0.kind scStart (addressOf sc0 scStart) 0x1000 3#3 ∧
    after (exec sc0 scStart) (fun t => t.readReg 14 == 1#32) = true ∧
    after (exec sc0 { scStart with llb := false }) (fun t => t.readReg 14 == 0#32) = true := by
  refine ⟨?_, reaches_sc, ?_, ?_⟩ <;> decide

/-- UnpredictableResultIsDrawn: no link, another partner, another address, a location that is not synchronizable, an
attribute that supports no read-modify-write, a mixed sequence. -/
theorem witness_UnpredictableResultIsDrawn :
    (∀ s ∈ [{ scStart with link := none }, start .lle 0x1000, start .ll 0x1004,
        reconf scStart (fun c => { c with unsynchronizable := [⟨0x1000, 0x1000, [3#3]⟩] }),
        reconf scStart (fun c => { c with multiprocessor := true }), { scStart with linkMixed := true }],
      ¬ Predictable sc0.kind s (addressOf sc0 s) 0x1000 3#3 ∧ Reaches sc0.kind s (addressOf sc0 s) 0x1000 3#3) := by
  intro s hs
  simp only [List.mem_cons, List.not_mem_nil, or_false] at hs
  rcases hs with rfl | rfl | rfl | rfl | rfl | rfl <;> exact ⟨not_predictable_of (by decide), reaches_of rfl⟩

/-- BrokenLinkForcesFailure: `LLB = 0`, and a broken link. -/
theorem witness_BrokenLinkForcesFailure :
    (∀ s ∈ [{ scStart with llb := false }, { scStart with linkBroken := true }],
      Reaches sc0.kind s (addressOf sc0 s) 0x1000 3#3 ∧ Predictable sc0.kind s (addressOf sc0 s) 0x1000 3#3 ∧
        (s.llb = false ∨ s.linkBroken = true)) := by
  intro s hs
  simp only [List.mem_cons, List.not_mem_nil, or_false] at hs
  rcases hs with rfl | rfl <;> exact ⟨reaches_of rfl, predictable_of (by decide), by decide⟩

/-- IntactLinkSucceedsOrDraws: certain success with a span of 2047 bytes between its ends, and a draw with one of 2048, after
a may-fail event, and without `AssumeProgress`. -/
theorem witness_IntactLinkSucceedsOrDraws :
    (∀ s ∈ [{ scStart with pc := 0x7FC#32, span := some ⟨0, 3⟩ }, { scStart with pc := 0x800#32, span := some ⟨0, 3⟩ },
        { scStart with mayFail := true }, { scStart with cfg := Config.default }],
      Reaches sc0.kind s (addressOf sc0 s) 0x1000 3#3 ∧ Predictable sc0.kind s (addressOf sc0 s) 0x1000 3#3 ∧
        s.llb = true ∧ s.linkBroken = false) ∧
    (spanWith (some ⟨0, 3⟩) 0x7FC#32 4).last < (spanWith (some ⟨0, 3⟩) 0x7FC#32 4).first + 2048 ∧
    ¬ (spanWith (some ⟨0, 3⟩) 0x800#32 4).last < (spanWith (some ⟨0, 3⟩) 0x800#32 4).first + 2048 := by
  refine ⟨?_, by decide, by decide⟩
  intro s hs
  simp only [List.mem_cons, List.not_mem_nil, or_false] at hs
  rcases hs with rfl | rfl | rfl | rfl <;> exact ⟨reaches_of rfl, predictable_of (by decide), rfl, rfl⟩

/-- AttributesThatSupportRmw: a cached noncoherent attribute on a multi-processor system. -/
theorem witness_AttributesThatSupportRmw :
    Reaches sc0.kind (reconf scStart (fun c => { c with multiprocessor := true }))
      (addressOf sc0 (reconf scStart (fun c => { c with multiprocessor := true }))) 0x1000 3#3 ∧
    ccaSupportsRmw (reconf scStart (fun c => { c with multiprocessor := true })).cfg 3#3 = false := ⟨reaches_of rfl, rfl⟩

/-- StoredWordsReadBack: each form stores. -/
theorem witness_StoredWordsReadBack :
    Reaches .sc scStart (wordAddress scStart 12 0#9) 0x1000 3#3 ∧ Reaches .sce sceStart (wordAddress sceStart 12 0#9) 0x1000 3#3 ∧
    Reaches .scwp scwpStart (pairAddress scwpStart 6) 0x2000 3#3 ∧ Reaches .scwpe scwpeStart (pairAddress scwpeStart 6) 0x2000 3#3 ∧
    after (exec sc0 scStart) (fun t => t.readReg 14 == 1#32) = true ∧
    after (exec sce0 sceStart) (fun t => t.readReg 14 == 1#32) = true ∧
    after (exec scwp0 scwpStart) (fun t => t.readReg 4 == 1#32) = true ∧
    after (exec scwpe0 scwpeStart) (fun t => t.readReg 4 == 1#32) = true := by
  refine ⟨reaches_of rfl, reaches_of rfl, reaches_of rfl, reaches_of rfl, ?_, ?_, ?_, ?_⟩ <;> decide

/-- CompletionClearsLlb, MemoryContentsAffectOnlyMemory, OtherRegistersIrrelevant and RegisterZeroDiscards: an instruction
that completes, one that faults, one that is refused, a register it does not use, and `rt = 0`. -/
theorem witness_completes_faults_and_is_refused :
    (∃ t, exec sc0 scStart = .next t) ∧
    (∃ f, exec sc0 (withReg scStart 12 0x1002#32) = .fault f) ∧
    (∃ r, exec sc0 (reconf scStart (uncachedPlatform false)) = .refused r) ∧
    usesReg sc0 13 = false ∧ usesReg scwp0 0 = false ∧
    destOf (.sc 0 0#9 12) = 0 ∧ (∃ t, exec (.sc 0 0#9 12) scStart = .next t) :=
  ⟨⟨_, rfl⟩, ⟨_, rfl⟩, ⟨_, rfl⟩, by decide, by decide, rfl, ⟨_, rfl⟩⟩

/-- `SameCop0` of the four statements that have it, for an EVA form: a register it does not use, other memory, another link,
and the state after its load-linked instruction. -/
theorem witness_SameCop0 :
    usesReg sce0 13 = false ∧ SameCop0 sce0.kind sceStart (sceStart.writeReg 13 5#32) ∧
    SameCop0 sce0.kind sceStart (sceStart.withMem [(0x1000, 0x7#8)]) ∧
    SameCop0 sce0.kind sceStart { sceStart with link := none, linkBroken := true } ∧
    partner sce0.kind = .lle ∧
    (∃ t, step (withTurns sceStart [.foreign 0x3FC#32 4 (.loadLinked .lle (addressOf sce0 sceStart) 0x1000 3#3)]) = .next t ∧
      SameCop0 sce0.kind (withTurns sceStart [.foreign 0x3FC#32 4 (.loadLinked .lle (addressOf sce0 sceStart) 0x1000 3#3)]) t) :=
  ⟨by decide, fun _ => rfl, fun _ => rfl, fun _ => rfl, rfl, _, rfl, fun _ => rfl⟩

/-- Cop0UsableOfTheState: a rule of the mode that is not the default's, and an oracle. -/
theorem witness_Cop0UsableOfTheState :
    (reconf sceStart (fun c => { c with cop0 := .byMode false true })).cfg.cop0 = .byMode false true ∧
    cop0Usable (reconf sceStart (fun c => { c with cop0 := .byMode false true })) = false ∧
    cop0Usable (reconf { sceStart with mode := .user } (fun c => { c with cop0 := .byMode false true })) = true ∧
    (reconf sceStart (fun c => { c with cop0 := .oracle 7 })).cfg.cop0 = .oracle 7 ∧
    State.reset.mode = .kernel ∧ State.reset.arch.mode = .kernel := by decide

/-- D14 (95_test_vectors SCE-1 with another `Cop0Usable`): under an oracle SCE raises Coprocessor Unusable when it says no. -/
theorem test_sce_under_an_oracle :
    Config.cop0Oracle 7 (reconf sceStart (fun c => { c with cop0 := .oracle 7 })).arch = false →
    exec sce0 (reconf sceStart (fun c => { c with cop0 := .oracle 7 })) =
      .fault (.raised (.coprocessorUnusable 0) 0x400#32) := by
  intro h
  have hu : cop0Usable (reconf sceStart (fun c => { c with cop0 := .oracle 7 })) = false := h
  show storeConditional .sce _ _ _ _ = _
  simp only [storeConditional, scTarget, scAvailable, hu]
  rfl

/-- SecondStoreConditionalDraws: a second store-conditional to the same address, at once and after another agent's turn. -/
theorem witness_SecondStoreConditionalDraws :
    (∃ t, exec sc0 scStart = .next t ∧ Host.Core.run Sys2Proof.core 0 t = .next t ∧
      Reaches sc0.kind t (addressOf (.sc 15 0#9 12) t) 0x1000 3#3) ∧
    (∃ t t', exec sc0 (withTurns scStart [.environment .other]) = .next t ∧ t.schedule = [.environment .other] ++ [] ∧
      Between (.environment .other) = true ∧ Host.Core.run Sys2Proof.core 1 t = .next t' ∧
      Reaches sc0.kind t' (addressOf (.sc 15 0#9 12) t') 0x1000 3#3) :=
  ⟨⟨_, rfl, rfl, reaches_of rfl⟩, ⟨_, _, rfl, rfl, rfl, rfl, reaches_of rfl⟩⟩

/-- ChecksIgnoreTheLink: its last clause, a store-conditional that fails. -/
theorem witness_ChecksIgnoreTheLink :
    after (exec sc0 { scStart with linkBroken := true }) (fun t => t.readReg (destOf sc0) == 0#32) = true ∧
    destOf sc0 ≠ 0 := by decide

/-- PairNeedsXnpClear and EvaFormsNeedEva. -/
theorem witness_absent_features :
    (reconf scwpStart (fun c => { c with xnp := true })).cfg.xnp = true ∧
    (reconf sceStart (fun c => { c with eva := false })).cfg.eva = false ∧
    (reconf sceStart (fun c => { c with eva := false })).cfg.xnp = false := ⟨rfl, rfl, rfl⟩

/-- MisalignedAddressTraps: a word address off by 3, a double word address off by 4, with the forms available; an offset that
the encoding holds. -/
theorem witness_MisalignedAddressTraps :
    (addressOf sce0 (withReg sceStart 12 0x1003#32)).toNat % sce0.kind.nbytes ≠ 0 ∧
    (addressOf scwpe0 (withReg scwpeStart 6 0x2004#32)).toNat % scwpe0.kind.nbytes ≠ 0 ∧
    sceStart.cfg.eva = true ∧ cop0Usable sceStart = true ∧ scwpeStart.cfg.xnp = false ∧
    offsetEncodable 0x1FC#9 = true := by decide

/-- UncachedWithoutUlsIsRefused: SC-17's start. -/
theorem witness_UncachedWithoutUlsIsRefused :
    (addressOf sc0 (reconf scStart (uncachedPlatform false))).toNat % sc0.kind.nbytes = 0 ∧
    translate (reconf scStart (uncachedPlatform false)).cfg (addressOf sc0 (reconf scStart (uncachedPlatform false)))
      sc0.kind.isEva .kernel = .mapped 0x1000 2#3 ∧
    0x1000 + sc0.kind.nbytes ≤ 2 ^ (reconf scStart (uncachedPlatform false)).cfg.paBits ∧
    (reconf scStart (uncachedPlatform false)).cfg.uls = false := by decide

/-- A platform whose kernel view raises `e`. -/
def raising (e : TransExc) (c : Config) : Config :=
  { c with translation := [⟨.kernel, 0#32, 0xFFFFFFFF#32, .raises e⟩] }

/-- ExceptionPriority and ExceptionsOfEachForm: an instance of each branch (the first and the next-state one are above). -/
theorem witness_ExceptionPriority :
    faults (exec scwp0 (reconf scwpStart (fun c => { c with xnp := true }))) (.raised .reservedInstruction 0x400#32) = true ∧
    faults (exec sce0 (reconf sceStart (fun c => { c with eva := false }))) (.raised .reservedInstruction 0x400#32) = true ∧
    faults (exec sce0 { sceStart with mode := .user }) (.raised (.coprocessorUnusable 0) 0x400#32) = true ∧
    faults (exec sc0 (reconf scStart (raising .addressError))) (.raised (.addressErrorStore 0x1000#32) 0x400#32) = true ∧
    faults (exec sc0 (reconf scStart (raising .tlbRefill))) (.raised (.tlbRefill 0x1000#32) 0x400#32) = true ∧
    faults (exec sc0 (reconf scStart (raising .tlbInvalid))) (.raised (.tlbInvalid 0x1000#32) 0x400#32) = true ∧
    faults (exec sc0 (reconf scStart (raising .tlbModified))) (.raised (.tlbModified 0x1000#32) 0x400#32) = true ∧
    faults (exec sc0 (reconf scStart (fun c => { c with paBits := 12 }))) (.noSuchPhysicalAddress 0x1000 4) = true ∧
    refuses (exec sc0 (reconf scStart (uncachedPlatform false))) (.unpredictable 0x400#32) = true ∧
    faults (exec sc0 (reconf scStart (fun c => { c with watch := [⟨0x1000#32, 0x1000#32, [4]⟩] })))
      (.raised .watch 0x400#32) = true ∧
    faults (exec sc0 (reconf scStart (fun c => { c with busError := [⟨⟨0x1000, 0x1003, [3#3]⟩, [4]⟩] })))
      (.raised .busError 0x400#32) = true := by decide

/-- EvaTranslatesAsUser: an EVA form in kernel mode. -/
theorem witness_EvaTranslatesAsUser : sceStart.cfg.eva = true ∧ cop0Usable sceStart = true := by decide

/-! Events. -/

/-- EnvironmentKeepsTheProcessor and CoherentStoreIntoBlockBreaks: the last linked byte, stored by either agent, and the
store-conditional after it. -/
theorem witness_CoherentStoreIntoBlockBreaks :
    inBlock scStart.cfg (linkOn .ll 0x1000) 0x1003 = true ∧ scStart.link = some (linkOn .ll 0x1000) ∧
    (∃ t u, step (withTurns scStart [.environment (.access (.coherentStore 3#3 [(0x1003, 0x99#8)]))]) = .next t ∧
      exec sc0 t = .next u ∧ Reaches sc0.kind t (addressOf sc0 t) 0x1000 3#3 ∧
      Predictable sc0.kind t (addressOf sc0 t) 0x1000 3#3) ∧
    (∃ t u, step (withTurns scStart [.foreign 0x3FC#32 4 (.access (.coherentStore 3#3 [(0x1003, 0x99#8)]))]) = .next t ∧
      exec sc0 t = .next u ∧ Reaches sc0.kind t (addressOf sc0 t) 0x1000 3#3 ∧
      Predictable sc0.kind t (addressOf sc0 t) 0x1000 3#3) :=
  ⟨by decide, rfl, ⟨_, _, rfl, rfl, reaches_of rfl, predictable_of (by decide)⟩,
    ⟨_, _, rfl, rfl, reaches_of rfl, predictable_of (by decide)⟩⟩

/-- LoadInBlockIsHarmless: a load of the last linked byte, by either agent. -/
theorem witness_LoadInBlockIsHarmless :
    inBlock scStart.cfg (linkOn .ll 0x1000) 0x1003 = true ∧ scStart.link = some (linkOn .ll 0x1000) ∧
    (∃ t, step (withTurns scStart [.foreign 0x3FC#32 4 (.access (.load 3#3 [0x1003]))]) = .next t) ∧
    (∃ t, step (withTurns scStart [.environment (.access (.load 3#3 [0x1003]))]) = .next t) :=
  ⟨by decide, rfl, ⟨_, rfl⟩, ⟨_, rfl⟩⟩

/-- BlockBounds: an aligned word and an aligned pair on the vectors' platform, at the top of the physical space. -/
theorem witness_BlockBounds :
    BlocksWf scStart.cfg ∧ (linkOn .llwp 0xFFFFFFF8).nbytes = LinkKind.nbytes (linkOn .llwp 0xFFFFFFF8).kind ∧
    (linkOn .llwp 0xFFFFFFF8).pa % 8 = 0 ∧ 0xFFFFFFF8 + 8 ≤ 2 ^ scStart.cfg.paBits ∧ scStart.cfg.xnp = false ∧
    (linkOn .ll 0xFFFFFFFC).pa % 4 = 0 := ⟨blocksWf_start, rfl, by decide, by decide, rfl, by decide⟩

/-- RegularBlocksMeetTheBounds: the reset configuration with blocks of 32 bytes that begin 8 below a multiple of 32. -/
theorem witness_RegularBlocksMeetTheBounds :
    let c : Config := { Config.default with blockSize := 32, blockShift := 8, minPageSize := 32 }
    c.blocks = [] ∧ 0 < c.blockSize ∧ c.blockSize % 8 = 0 ∧ c.blockShift % 8 = 0 ∧ c.blockSize ≤ c.minPageSize := by decide

/-- EretncKeepsTheLink. -/
theorem witness_EretncKeepsTheLink :
    (withTurns scStart [.foreign 0x3FC#32 4 .eretnc]).schedule = [.foreign 0x3FC#32 4 .eretnc] := rfl

/-- EretForcesFailure: an ERET, another instruction, and the store-conditional. -/
theorem witness_EretForcesFailure :
    Between (.foreign 0x3FC#32 4 .other) = true ∧
    ∃ t u, Host.Core.run Sys2Proof.core 2 (withTurns scStart [.foreign 0x3F8#32 4 .eret, .foreign 0x3FC#32 4 .other]) = .next t ∧
      exec sc0 t = .next u ∧ Reaches sc0.kind t (addressOf sc0 t) 0x1000 3#3 ∧
      Predictable sc0.kind t (addressOf sc0 t) 0x1000 3#3 := ⟨rfl, _, _, rfl, rfl, reaches_of rfl, predictable_of (by decide)⟩

/-- OtherAttributeMixes: a load-linked instruction; a load with attribute 3 in an uncached sequence, by either agent; a mixed
sequence at the store-conditional. -/
theorem witness_OtherAttributeMixes :
    (∃ t, step (withTurns scStart [.foreign 0x3FC#32 4 (.loadLinked .ll 0x1000#32 0x1000 3#3)]) = .next t) ∧
    uncachedStart.link = some ⟨.ll, 0x1000#32, 0x1000, 2#3, 4⟩ ∧ Access.attr (.load 3#3 [0x1003]) ≠ 2#3 ∧
    inBlock uncachedStart.cfg ⟨.ll, 0x1000#32, 0x1000, 2#3, 4⟩ 0x1003 = true ∧
    (∃ t, step (withTurns uncachedStart [.environment (.access (.load 3#3 [0x1003]))]) = .next t) ∧
    (∃ t, step (withTurns uncachedStart [.foreign 0x3FC#32 4 (.access (.load 3#3 [0x1003]))]) = .next t) ∧
    Reaches sc0.kind { uncachedStart with linkMixed := true } (addressOf sc0 { uncachedStart with linkMixed := true }) 0x1000 2#3 ∧
    (∃ t, exec sc0 uncachedStart = .next t) :=
  ⟨⟨_, rfl⟩, rfl, by decide, by decide, ⟨_, rfl⟩, ⟨_, rfl⟩, reaches_of rfl, ⟨_, rfl⟩⟩

/-- OwnUncachedStoreBreaks: an uncached store into the linked data, by either agent. -/
theorem witness_OwnUncachedStoreBreaks :
    uncachedStart.linkBroken = false ∧ inLinkedData ⟨.ll, 0x1000#32, 0x1000, 2#3, 4⟩ 0x1003 = true ∧
    (∃ t, step (withTurns uncachedStart [.foreign 0x3FC#32 4 (.access (.nonCoherentStore 2#3 [(0x1003, 1#8)]))]) = .next t) ∧
    (∃ t, step (withTurns uncachedStart [.environment (.access (.nonCoherentStore 2#3 [(0x1003, 1#8)]))]) = .next t) :=
  ⟨rfl, by decide, ⟨_, rfl⟩, ⟨_, rfl⟩⟩

/-- MayFailEventsOnlyNote: a state with a link and one without, and a turn of either agent. -/
theorem witness_MayFailEventsOnlyNote :
    scStart.link = some (linkOn .ll 0x1000) ∧ { scStart with link := none }.link = none ∧
    (withTurns scStart [.foreign 0x3FC#32 4 .pref]).schedule = [.foreign 0x3FC#32 4 .pref] ∧
    (withTurns scStart [.environment .cacheOp]).schedule = [.environment .cacheOp] := ⟨rfl, rfl, rfl, rfl⟩

/-- AccessOutsideTheBlockMayFail: a load with another attribute that straddles the block's end, and a store wholly after
it. -/
theorem witness_AccessOutsideTheBlockMayFail :
    scStart.link = some (linkOn .ll 0x1000) ∧ inBlock scStart.cfg (linkOn .ll 0x1000) 0x1007 = true ∧
    inBlock scStart.cfg (linkOn .ll 0x1000) 0x1008 = false ∧
    (∃ t, step (withTurns scStart [.foreign 0x3FC#32 4 (.access (.load 2#3 [0x1007, 0x1008]))]) = .next t) ∧
    (∃ t, step (withTurns scStart [.foreign 0x3FC#32 4 (.access (.coherentStore 3#3 [(0x1008, 1#8)]))]) = .next t) :=
  ⟨rfl, by decide, by decide, ⟨_, rfl⟩, ⟨_, rfl⟩⟩

/-- NonCoherentStoreMayFail: by this processor on a uniprocessor, and by another agent on a multi-processor system. -/
theorem witness_NonCoherentStoreMayFail :
    inBlock scStart.cfg (linkOn .ll 0x1000) 0x1007 = true ∧ scStart.cfg.multiprocessor = false ∧
    (linkOn .ll 0x1000).cca = 3#3 ∧
    (∃ t, step (withTurns scStart [.foreign 0x3FC#32 4 (.access (.nonCoherentStore 3#3 [(0x1007, 1#8)]))]) = .next t) ∧
    (reconf scStart (fun c => { c with multiprocessor := true })).cfg.multiprocessor = true ∧
    (∃ t, step (withTurns (reconf scStart (fun c => { c with multiprocessor := true }))
      [.environment (.access (.nonCoherentStore 3#3 [(0x1007, 1#8)]))]) = .next t) :=
  ⟨by decide, rfl, rfl, ⟨_, rfl⟩, rfl, ⟨_, rfl⟩⟩

/-- PauseInUncachedSequenceIsNop. -/
theorem witness_PauseInUncachedSequenceIsNop :
    (withTurns uncachedStart [.foreign 0x3FC#32 4 .pause]).link = some ⟨.ll, 0x1000#32, 0x1000, 2#3, 4⟩ := rfl

/-- UninterruptedSequence: LL at `0x3FC`, SC at `0x400`, with and without `AssumeProgress`. -/
theorem witness_UninterruptedSequence :
    partner sc0.kind = .ll ∧ addressOf sc0 scStart = 0x1000#32 ∧
    Reaches sc0.kind scStart (addressOf sc0 scStart) 0x1000 3#3 ∧ synchronizable scStart.cfg 0x1000 3#3 = true ∧
    ccaSupportsRmw scStart.cfg 3#3 = true ∧ scStart.cfg.assumeProgress = true ∧
    (0x3FC#32).toNat + 4 ≤ scStart.pc.toNat ∧ scStart.pc.toNat + 4 ≤ (0x3FC#32).toNat + 2048 :=
  ⟨rfl, by decide, reaches_sc, rfl, rfl, rfl, by decide, by decide⟩

/-- SuccessMeansNoCoherentStoreBetween: LL, another agent's store outside the block, then an SC that returns 1, and one of
register 0 that changes memory; and one with a store into the linked data, after which SC returns 0. -/
theorem witness_SuccessMeansNoCoherentStoreBetween :
    Between (.environment (.access (.coherentStore 3#3 [(0x1003, 0x99#8)]))) = true ∧ destOf sc0 ≠ 0 ∧
    (∃ t u, Host.Core.run Sys2Proof.core 2 (withTurns scStart [.foreign 0x3FC#32 4 (.loadLinked .ll 0x1000#32 0x1000 3#3),
        .environment (.access (.coherentStore 3#3 [(0x1008, 0x99#8)]))]) = .next t ∧ exec sc0 t = .next u ∧
      Reaches sc0.kind t (addressOf sc0 t) 0x1000 3#3 ∧ Predictable sc0.kind t (addressOf sc0 t) 0x1000 3#3 ∧
      u.readReg (destOf sc0) = 1#32) ∧
    (∃ t u, Host.Core.run Sys2Proof.core 1 (withTurns scStart [.foreign 0x3FC#32 4 (.loadLinked .ll 0x1000#32 0x1000 3#3)])
        = .next t ∧ exec (.sc 0 0#9 12) t = .next u ∧ Reaches .sc t (addressOf (.sc 0 0#9 12) t) 0x1000 3#3 ∧
      Predictable .sc t (addressOf (.sc 0 0#9 12) t) 0x1000 3#3 ∧ u.mem ≠ t.mem) ∧
    (∃ t u, Host.Core.run Sys2Proof.core 2 (withTurns scStart [.foreign 0x3FC#32 4 (.loadLinked .ll 0x1000#32 0x1000 3#3),
        .environment (.access (.coherentStore 3#3 [(0x1003, 0x99#8)]))]) = .next t ∧ exec sc0 t = .next u ∧
      Reaches sc0.kind t (addressOf sc0 t) 0x1000 3#3 ∧ Predictable sc0.kind t (addressOf sc0 t) 0x1000 3#3 ∧
      u.readReg (destOf sc0) = 0#32) :=
  ⟨rfl, by decide, ⟨_, _, rfl, rfl, reaches_of rfl, predictable_of (by decide), rfl⟩,
    ⟨_, _, rfl, rfl, reaches_of rfl, predictable_of (by decide), by decide⟩,
    ⟨_, _, rfl, rfl, reaches_of rfl, predictable_of (by decide), rfl⟩⟩

/-- StepKeepsListsWf, StepKeepsConfigModeText and StepAdvancesPc: a state with listed memory and text that takes a step, at
the processor's own turn and at another's. -/
theorem witness_step_invariants :
    ListsWf { standing 0xA5CC5900#32 with mem := [(0xFFFFFFFF, 1#8)] } ∧
    (∃ t, step { standing 0xA5CC5900#32 with mem := [(0xFFFFFFFF, 1#8)] } = .next t) ∧
    (∃ t, step (withTurns (standing 0xA5CC5900#32) [.environment .other]) = .next t) ∧
    pcEven (standing 0xA5CC5900#32).pc = true := by
  refine ⟨⟨by decide, by decide, ?_⟩, ⟨_, rfl⟩, ⟨_, rfl⟩, by decide⟩
  intro c hc
  simp only [List.mem_cons, List.not_mem_nil, or_false] at hc
  subst hc
  decide

/-- StepKeepsLinkWf: a mixed uncached sequence that takes a step. -/
theorem witness_StepKeepsLinkWf :
    LinkWf { uncachedStart with linkMixed := true, schedule := [.environment .other] } ∧
    (∃ t, step { uncachedStart with linkMixed := true, schedule := [.environment .other] } = .next t) := by
  refine ⟨⟨?_, fun _ => ⟨_, rfl, by decide⟩⟩, ⟨_, rfl⟩⟩
  intro l hl
  cases hl
  rfl

/-- LaunchKeepsStoresOffTheText: a launch state, a step of its run, and a store within its range. -/
theorem witness_LaunchKeepsStoresOffTheText :
    Launch (scStart.withFetchWord 32 0xA5CC5900) [(0x1000#32, 4)] ∧
    (∃ t, Host.Core.run Sys2Proof.core 1 (scStart.withFetchWord 32 0xA5CC5900) = .next t ∧
      storesWithin [(0x1000#32, 4)] sc0 t) :=
  ⟨test_launch_and_end.1, _, rfl, (0x1000#32, 4), by decide, by decide⟩

end Sys2Proof.Tests
end

/-! # Proofs of the family 20_memory -/

/-! Reasoning rules for a whole instruction: where a test of R100 ends it, and what it leaves when they all pass. -/

namespace Sys2Proof.Machine

/-- `StoreConditional` ends as its first failing test says. -/
theorem storeConditional_of_error {w : Nat} {k : ScKind} {s : State} {va : Word} {e : Stop}
    (h : scTarget k va s = .error e) (rt : Reg) (datum : BitVec w) :
    storeConditional k rt va datum s = e.outcome := by
  simp [storeConditional, h]

/-- An instruction ends as the first failing test of R100 says. -/
theorem exec_of_error {i : Instr} {s : State} {e : Stop}
    (h : scTarget i.kind (Safety.addressOf i s) s = .error e) : exec i s = e.outcome := by
  cases i <;> exact storeConditional_of_error h _ _

/-- An instruction that passes the tests of R100 completes, with the success bit of R122 and a draw counted if one was
taken. -/
theorem exec_of_reaches {i : Instr} {s : State} {pa : Nat} {cca : Cca}
    (hr : Safety.Reaches i.kind s (Safety.addressOf i s) pa cca) :
    ∃ t, exec i s = .next t ∧
      Safety.Completed (Safety.destOf i) pa (Safety.bytesOf i s)
        (commitSuccess s i.kind (Safety.addressOf i s) pa cca) s t ∧
      t.draws = if (scVerdict s i.kind (Safety.addressOf i s) pa cca).isDraw then s.draws + 1 else s.draws := by
  cases i with
  | sc rt offset rs =>
    exact ⟨_, storeConditional_of_reaches hr rt (wordDatum s rt), scCommit_completed .sc .., rfl⟩
  | sce rt offset rs =>
    exact ⟨_, storeConditional_of_reaches hr rt (wordDatum s rt), scCommit_completed .sce .., rfl⟩
  | scwp rt ru rs =>
    exact ⟨_, storeConditional_of_reaches hr rt (pairDatum s rt ru), scCommit_completed .scwp .., rfl⟩
  | scwpe rt ru rs =>
    exact ⟨_, storeConditional_of_reaches hr rt (pairDatum s rt ru), scCommit_completed .scwpe .., rfl⟩

/-- With a predictable result a broken link makes the success bit 0 (R122, R123). -/
theorem commitSuccess_of_broken {k : ScKind} {s : State} {va : Word} {pa : Nat} {cca : Cca}
    (hp : Safety.Predictable k s va pa cca) (hb : s.linkBroken = true) : commitSuccess s k va pa cca = false := by
  rw [commitSuccess, scVerdict_of_broken hp (.inr hb), Verdict.success]

/-- Steps 1 to 3 of R100 pass for a form that exists and may be used (R161 to R163). -/
theorem scAvailable_of_form {k : ScKind} {s : State} (hpairs : k.nbytes = 8 → s.cfg.xnp = false)
    (heva : k.isEva = true → s.cfg.eva = true ∧ cop0Usable s = true) : scAvailable k s = .ok () :=
  (scAvailable_ok_iff k s ()).mpr ⟨hpairs, fun h => (heva h).1, fun h => (heva h).2⟩

/-- An available form with a misaligned address raises Address Error (R55, R164). -/
theorem scTarget_of_misaligned {k : ScKind} {va : Word} {s : State} (ha : scAvailable k s = .ok ())
    (hm : va.toNat % k.nbytes ≠ 0) : scTarget k va s = .error (raise (.addressErrorStore va) s) := by
  have hmis : misaligned va k.nbytes = true := by
    rw [← Bool.not_eq_false, misaligned_eq_false_iff]
    exact hm
  simp [scTarget, ha, hmis]

/-- For an available form with an aligned address that is mapped, the tests of the access are what is left. -/
theorem scTarget_of_mapped {k : ScKind} {va : Word} {s : State} {pa : Nat} {cca : Cca}
    (ha : scAvailable k s = .ok ()) (hm : va.toNat % k.nbytes = 0)
    (ht : translate s.cfg va k.isEva s.mode = .mapped pa cca) : scTarget k va s = scAccess k va pa cca s := by
  simp [scTarget, ha, (misaligned_eq_false_iff k va).mpr hm, ht]

/-- An uncached access to an existing address is refused when `ULS = 0` (R65, R170). -/
theorem scAccess_uncached_without_uls {k : ScKind} {va : Word} {pa : Nat} {cca : Cca} {s : State}
    (hx : pa + k.nbytes ≤ 2 ^ s.cfg.paBits) (hc : cca = 2#3 ∨ cca = 7#3) (hu : s.cfg.uls = false) :
    scAccess k va pa cca s = .error (.refused (.unpredictable s.pc)) := by
  simp [scAccess, physExists, hx, (ccaUncached_iff cca).mpr hc, hu]

/-- The sign extension of an offset the encoding holds is a multiple of 4 (R86). -/
theorem signExtend_mod_four {offset : BitVec 9} (h : offsetEncodable offset = true) :
    (offset.signExtend 32).toNat % 4 = 0 := by
  have hlow : offset.toNat % 4 = 0 := by
    simpa [offsetEncodable, BitVec.toNat_eq] using h
  rw [BitVec.toNat_signExtend, BitVec.toNat_setWidth]
  split <;> omega

/-- Adding an offset the encoding holds keeps the base's remainder by 4 (R55, R72). -/
theorem wordAddress_mod_four {offset : BitVec 9} (h : offsetEncodable offset = true) (s : State) (rs : Reg) :
    (wordAddress s rs offset).toNat % 4 = (s.readReg rs).toNat % 4 := by
  have hoff := signExtend_mod_four h
  rw [wordAddress, BitVec.toNat_add]
  omega

/-- After the turn of a load-linked instruction its record is the link (R151). -/
theorem step_loadLinked {s t : State} {v va : Word} {len pa : Nat} {k : LinkKind} {cca : Cca} {ts : List Turn}
    (hs : s.schedule = .foreign v len (.loadLinked k va pa cca) :: ts) (h : step s = .next t) :
    t.schedule = ts ∧ t.link = some ⟨k, va, pa, cca, LinkKind.nbytes k⟩ := by
  simp only [step, hs, foreignStep, loadLinkedStep] at h
  split at h <;> cases h
  exact ⟨rfl, rfl⟩

/-- A coherent store into the linked data, after the load-linked instruction and before the next one, leaves the link
broken (R123). -/
theorem linkBroken_of_coherentStore_between {s t : State} {v va : Word} {len pa : Nat} {k : LinkKind} {cca : Cca}
    {ts rest : List Turn} (hs : s.schedule = .foreign v len (.loadLinked k va pa cca) :: (ts ++ rest))
    (hts : ∀ x ∈ ts, Safety.Between x = true) (h : Host.Core.run Sys2Proof.core (ts.length + 1) s = .next t)
    (hx : ∃ x ∈ ts, Safety.coherentStoreInto ⟨k, va, pa, cca, LinkKind.nbytes k⟩ x = true) :
    t.linkBroken = true := by
  obtain ⟨s', hstep, hrun⟩ := run_succ h
  obtain ⟨hsched, hlink⟩ := step_loadLinked hs hstep
  obtain ⟨-, -, -, hbreak⟩ := between_run ts rest s' t hsched hts hrun
  exact hbreak _ hlink hx

end Sys2Proof.Machine

namespace Sys2Proof.Proofs

open Sys2Proof.Machine Sys2Proof.Safety

/-- Settles O49: a coherent store in between leaves the link broken, and a broken link makes the success bit 0, with which
neither the result is 1 nor memory changes. -/
theorem successMeansNoCoherentStoreBetween : Obligations.SuccessMeansNoCoherentStoreBetween := by
  intro i s t u k va v len pa pa' cca cca' ts rest hs hts hrun hexec hr hp
  obtain ⟨u', hu', hc, -⟩ := exec_of_reaches hr
  cases hu'.symm.trans hexec
  constructor
  · intro hdone x hx
    by_contra hstore
    have hbroken := linkBroken_of_coherentStore_between hs hts hrun ⟨x, hx, by simpa using hstore⟩
    rw [commitSuccess_of_broken hp hbroken] at hc
    rcases hdone with ⟨hrt, hone⟩ | hmem
    · simp [hc.result, hrt] at hone
    · exact hmem (hc.kept rfl)
  · intro hrt hzero
    refine hc.kept ?_
    by_contra hsuccess
    simp [hc.result, hrt, hsuccess] at hzero

/-- Settles O30: alignment is one of the tests a completed instruction has passed, it comes right after availability, and an
encodable offset is a multiple of 4. -/
theorem misalignedAddressTraps : Obligations.MisalignedAddressTraps := by
  refine ⟨fun i s hmis => ⟨fun t h => ?_, fun hpairs heva => ?_⟩, fun s rs offset ho => ?_⟩
  · obtain ⟨pa, cca, w, datum, hr, -⟩ := exec_next h
    exact hmis hr.aligned
  · exact exec_of_error (scTarget_of_misaligned (scAvailable_of_form hpairs heva) hmis)
  · rw [wordAddress_mod_four ho]

/-- Settles O31: of the tests left once the address is mapped, that of the uncached attribute is the first to fail. -/
theorem uncachedWithoutUlsIsRefused : Obligations.UncachedWithoutUlsIsRefused := by
  intro i s pa cca hpairs heva haligned hmapped hexists huncached huls
  have ha := scAvailable_of_form hpairs heva
  have htarget : scTarget i.kind (addressOf i s) s = .error (.refused (.unpredictable s.pc)) :=
    (scTarget_of_mapped ha haligned hmapped).trans (scAccess_uncached_without_uls hexists huncached huls)
  exact exec_of_error htarget

end Sys2Proof.Proofs

/-! # Proofs of the family 30_encoding -/

/-! The decoder: for each kind the instruction whose operands are a word's fields, which words decode to it, and the fields
of an encoded word. -/

namespace Sys2Proof

/-- The instruction of kind `k` whose operands are the fields of `w` (R86, R87). -/
def instrOfFields (k : ScKind) (w : InstrWord) : Instr :=
  match k with
  | .sc => .sc (fieldRt w) (fieldOffset w) (fieldRs w)
  | .sce => .sce (fieldRt w) (fieldOffset w) (fieldRs w)
  | .scwp => .scwp (fieldRt w) (fieldRu w) (fieldRs w)
  | .scwpe => .scwpe (fieldRt w) (fieldRu w) (fieldRs w)

@[simp] theorem instrOfFields_kind (k : ScKind) (w : InstrWord) : (instrOfFields k w).kind = k := by cases k <;> rfl

/-- A pair word decodes to nothing but the instruction given. -/
theorem decodePair_ok {strictX : Bool} {w : InstrWord} {i j : Instr} (h : decodePair strictX w i = .ok j) : j = i := by
  unfold decodePair at h
  split at h <;> cases h
  rfl

/-- What decodes is the instruction of its kind with the word's fields as operands (R89). -/
theorem eq_instrOfFields_of_decode {strictX : Bool} {w : InstrWord} {i : Instr} (h : decode strictX w = .ok i) :
    i = instrOfFields i.kind w := by
  unfold decode at h
  split at h
  · cases h; rfl
  split at h
  · cases h; rfl
  split at h
  · cases decodePair_ok h; rfl
  split at h
  · cases decodePair_ok h; rfl
  · cases h

/-- A pair word is decoded unless `StrictX` refuses its `x` bits (R88). -/
theorem decodePair_of_xBits {strictX : Bool} {w : InstrWord} (h : strictX = false ∨ w &&& xMask = 0#32) (i : Instr) :
    decodePair strictX w i = .ok i := by
  rcases h with h | h <;> simp [decodePair, h]

/-- The literal bits of a kind's format decode to that kind, a pair word unless `StrictX` refuses its `x` bits (R88, R89). -/
theorem decode_of_matchWord {k : ScKind} {strictX : Bool} {w : InstrWord} (h : w &&& opcodeMask = k.matchWord)
    (hx : k.nbytes = 8 → strictX = false ∨ w &&& xMask = 0#32) : decode strictX w = .ok (instrOfFields k w) := by
  cases k with
  | sc => simp [decode, h, instrOfFields]
  | sce => simp [decode, h, instrOfFields, ScKind.matchWord]
  | scwp => simp [decode, h, instrOfFields, ScKind.matchWord, decodePair_of_xBits (hx rfl)]
  | scwpe => simp [decode, h, instrOfFields, ScKind.matchWord, decodePair_of_xBits (hx rfl)]

/-- An encoded word carries the literal bits of its format (R81 to R84). -/
theorem encode_matchWord (i : Instr) : encode i &&& opcodeMask = i.kind.matchWord := by
  cases i with
  | sc => exact Laws.OpcodeMatch.sc ..
  | sce => exact Laws.OpcodeMatch.sce ..
  | scwp => exact Laws.OpcodeMatch.scwp ..
  | scwpe => exact Laws.OpcodeMatch.scwpe ..

/-- Where the diagrams of R81 and R82 put the operands of a word form. -/
theorem extractLsb'_encodeWordForm (rt rs : Reg) (offset : BitVec 9) (a : BitVec 2) :
    (encodeWordForm rt offset rs a).extractLsb' 21 5 = regBits rt ∧
    (encodeWordForm rt offset rs a).extractLsb' 16 5 = regBits rs ∧
    (encodeWordForm rt offset rs a).extractLsb' 15 1 = offset.extractLsb' 8 1 ∧
    (encodeWordForm rt offset rs a).extractLsb' 2 6 = offset.extractLsb' 2 6 := by
  refine ⟨?_, ?_, ?_, ?_⟩ <;>
  · apply BitVec.eq_of_getLsbD_eq
    intro j hj
    simp only [encodeWordForm, BitVec.getLsbD_extractLsb', BitVec.getLsbD_append]
    interval_cases j <;> simp

/-- Where the diagrams of R83 and R84 put the operands of a pair form. -/
theorem extractLsb'_encodePairForm (rt ru rs : Reg) (a : BitVec 2) :
    (encodePairForm rt ru rs a).extractLsb' 21 5 = regBits rt ∧
    (encodePairForm rt ru rs a).extractLsb' 16 5 = regBits rs ∧
    (encodePairForm rt ru rs a).extractLsb' 3 5 = regBits ru := by
  refine ⟨?_, ?_, ?_⟩ <;>
  · apply BitVec.eq_of_getLsbD_eq
    intro j hj
    simp only [encodePairForm, BitVec.getLsbD_extractLsb', BitVec.getLsbD_append]
    interval_cases j <;> simp

/-- The encoder writes the `x` bits 0 (R88). -/
theorem encodePairForm_xBits (rt ru rs : Reg) (a : BitVec 2) : encodePairForm rt ru rs a &&& xMask = 0#32 := by
  apply BitVec.eq_of_getLsbD_eq
  intro j hj
  simp only [encodePairForm, xMask, BitVec.getLsbD_and, BitVec.getLsbD_append]
  interval_cases j <;> simp

/-- An offset the encoding holds is its bits 8 and 7:2 with two zeros below (R86). -/
theorem offset_eq_of_encodable {offset : BitVec 9} (h : offsetEncodable offset = true) :
    offset.extractLsb' 8 1 ++ offset.extractLsb' 2 6 ++ 0#2 = offset := by
  have hlow : offset.extractLsb' 0 2 = 0#2 := by simpa [offsetEncodable] using h
  calc offset.extractLsb' 8 1 ++ offset.extractLsb' 2 6 ++ 0#2
      = offset.extractLsb' 2 7 ++ offset.extractLsb' 0 2 := by
        rw [BitVec.extractLsb'_append_extractLsb'_eq_extractLsb' (rfl : 8 = 2 + 6), hlow]
    _ = offset := BitVec.extractLsb'_append_extractLsb' (w := 7)

/-- The fields of an encoded word form are its operands (R86, R87). -/
theorem fields_encodeWordForm (rt rs : Reg) {offset : BitVec 9} (h : offsetEncodable offset = true) (a : BitVec 2) :
    fieldRt (encodeWordForm rt offset rs a) = rt ∧ fieldOffset (encodeWordForm rt offset rs a) = offset ∧
      fieldRs (encodeWordForm rt offset rs a) = rs := by
  obtain ⟨hrt, hrs, hhigh, hmid⟩ := extractLsb'_encodeWordForm rt rs offset a
  exact ⟨congrArg BitVec.toFin hrt, by rw [fieldOffset, hhigh, hmid, offset_eq_of_encodable h],
    congrArg BitVec.toFin hrs⟩

/-- The fields of an encoded pair form are its operands (R87). -/
theorem fields_encodePairForm (rt ru rs : Reg) (a : BitVec 2) :
    fieldRt (encodePairForm rt ru rs a) = rt ∧ fieldRu (encodePairForm rt ru rs a) = ru ∧
      fieldRs (encodePairForm rt ru rs a) = rs := by
  obtain ⟨hrt, hrs, hru⟩ := extractLsb'_encodePairForm rt ru rs a
  exact ⟨congrArg BitVec.toFin hrt, congrArg BitVec.toFin hru, congrArg BitVec.toFin hrs⟩

/-- An encoded well-formed instruction is the one its word's fields stand for (R86, R87). -/
theorem instrOfFields_encode {i : Instr} (h : i.wf = true) : instrOfFields i.kind (encode i) = i := by
  cases i with
  | sc rt offset rs => simp [Instr.kind, instrOfFields, encode, fields_encodeWordForm rt rs h]
  | sce rt offset rs => simp [Instr.kind, instrOfFields, encode, fields_encodeWordForm rt rs h]
  | scwp rt ru rs => simp [Instr.kind, instrOfFields, encode, fields_encodePairForm rt ru rs]
  | scwpe rt ru rs => simp [Instr.kind, instrOfFields, encode, fields_encodePairForm rt ru rs]

/-- The encoding of a pair form has its `x` bits 0 (R88). -/
theorem encode_xBits {i : Instr} (h : i.kind.nbytes = 8) : encode i &&& xMask = 0#32 := by
  cases i with
  | sc => cases h
  | sce => cases h
  | scwp rt ru rs => exact encodePairForm_xBits ..
  | scwpe rt ru rs => exact encodePairForm_xBits ..

/-- A well-formed instruction is the decoding of its encoding, under either reading of the `x` bits. -/
theorem decode_encode (strictX : Bool) {i : Instr} (h : i.wf = true) : decode strictX (encode i) = .ok i := by
  rw [decode_of_matchWord (encode_matchWord i) (fun hpair => .inr (encode_xBits hpair)), instrOfFields_encode h]

end Sys2Proof

/-! The processor's turn at a word that decodes, and what the tests of R100 say of a form that is absent. -/

namespace Sys2Proof.Machine

/-- The text's word at an even pc is fetched (R96). -/
theorem fetch_of_lookup {s : State} {w : InstrWord} (hpc : pcEven s.pc = true)
    (hw : cellsLookup s.text s.pc.toNat = some w) : fetch s = .word w := by
  simp [fetch, hpc, hw]

/-- The processor executes the instruction that the word at its pc decodes to (R89, R96). -/
theorem instructionStep_of_decode {s : State} {w : InstrWord} {i : Instr} (hf : fetch s = .word w)
    (hd : decode s.cfg.strictX w = .ok i) : instructionStep s = exec i s := by
  simp [instructionStep, hf, executeWord, hd]

/-- With an empty schedule or the processor's turn at its head, a step is the processor's, at the state with that turn taken
(log 30). -/
theorem step_of_processorTurn {s : State} (h : s.schedule = [] ∨ ∃ ts, s.schedule = .processor :: ts) :
    step s = instructionStep (s.withSchedule s.schedule.tail) := by
  obtain hs | ⟨ts, hs⟩ := h
  · have htaken : s.withSchedule s.schedule.tail = s := by rw [hs, List.tail_nil, ← hs, State.withSchedule]
    rw [htaken, step, hs]
  · rw [step, hs, List.tail_cons]

/-- A form whose feature is absent is not available (R161, R162). -/
theorem scAvailable_of_absent {k : ScKind} {s : State}
    (h : (k.nbytes = 8 ∧ s.cfg.xnp = true) ∨ (k.isEva = true ∧ s.cfg.eva = false)) :
    scAvailable k s = .error (raise .reservedInstruction s) := by
  rcases h with ⟨hk, hc⟩ | ⟨hk, hc⟩ <;> simp [scAvailable, hk, hc]

/-- What makes a form unavailable is what ends it: no other test of R100 comes first (R173). -/
theorem scTarget_of_unavailable {k : ScKind} {va : Word} {s : State} {e : Stop} (h : scAvailable k s = .error e) :
    scTarget k va s = .error e := by
  simp [scTarget, h]

/-- A decoded word whose form is absent raises Reserved Instruction where the processor executes it (R91). -/
theorem instructionStep_of_absent {k : ScKind} {s : State} {w : InstrWord} (hf : fetch s = .word w)
    (hm : w &&& opcodeMask = k.matchWord) (hx : k.nbytes = 8 → s.cfg.strictX = false ∨ w &&& xMask = 0#32)
    (habsent : (k.nbytes = 8 ∧ s.cfg.xnp = true) ∨ (k.isEva = true ∧ s.cfg.eva = false)) :
    instructionStep s = .fault (.raised .reservedInstruction s.pc) := by
  have hstop : scAvailable (instrOfFields k w).kind s = .error (raise .reservedInstruction s) := by
    rw [instrOfFields_kind, scAvailable_of_absent habsent]
  rw [instructionStep_of_decode hf (decode_of_matchWord hm hx), exec_of_error (scTarget_of_unavailable hstop)]
  rfl

end Sys2Proof.Machine

namespace Sys2Proof.Proofs

open Sys2Proof.Machine Sys2Proof.Safety

/-- Settles O5: a decoded instruction has the word's fields as operands, and every instruction of the four forms is the
decoding of its own encoding. -/
theorem registerOperands : Obligations.RegisterOperands := by
  refine ⟨fun w rt rs o h => ?_, fun w rt ru rs h => ?_, fun rt ru rs => ?_, fun s rt ru rs => ⟨rfl, rfl⟩⟩
  · rcases h with h | h <;> cases eq_instrOfFields_of_decode h <;> exact ⟨rfl, rfl⟩
  · rcases h with h | h <;> cases eq_instrOfFields_of_decode h <;> exact ⟨rfl, rfl, rfl⟩
  · have hzero : offsetEncodable 0#9 = true := by decide
    exact ⟨⟨_, decode_encode false (i := .sc rt 0#9 rs) hzero⟩, ⟨_, decode_encode false (i := .sce rt 0#9 rs) hzero⟩,
      ⟨_, decode_encode false (i := .scwp rt ru rs) rfl⟩, ⟨_, decode_encode false (i := .scwpe rt ru rs) rfl⟩⟩

/-- Settles O10: the word decodes, and availability is the first test of R100. -/
theorem absentFeatureTraps : Obligations.AbsentFeatureTraps := by
  intro s w hturn hpc hw
  have hf : fetch (s.withSchedule s.schedule.tail) = .word w := fetch_of_lookup hpc hw
  rw [step_of_processorTurn hturn]
  refine ⟨fun hm hx hxnp => ?_, fun hm heva => ?_, fun hm hx heva => ?_⟩
  · rcases hm with hm | hm <;> exact instructionStep_of_absent hf hm (fun _ => hx) (.inl ⟨rfl, hxnp⟩)
  · exact instructionStep_of_absent hf hm (fun hpair => by cases hpair) (.inr ⟨rfl, heva⟩)
  · exact instructionStep_of_absent hf hm (fun _ => hx) (.inr ⟨rfl, heva⟩)

end Sys2Proof.Proofs

/-! # Proofs of the family 40_store_conditional: completion clears the link -/

namespace Sys2Proof.Proofs

open Sys2Proof.Machine

/-- Settles O21: an instruction completes only by the commit of R100, successful or not, and the commit clears `LLB` and the
link record. -/
theorem completionClearsLlb : Obligations.CompletionClearsLlb := by
  intro i s t h
  obtain ⟨pa, cca, w, datum, -, rfl⟩ := exec_next h
  exact ⟨scCommit_llb .., scCommit_link ..⟩

end Sys2Proof.Proofs

/-! # Proofs of the family 41_llsc_sequence: when the result is drawn, and turns that leave the link alone -/

namespace Sys2Proof.Machine

/-! The success decision: an unpredictable result, and the attributes that support read-modify-write. -/

/-- An instruction whose result is unpredictable completes with the next draw as its success bit (R122, R140). -/
theorem exec_of_not_predictable {i : Instr} {s : State} {pa : Nat} {cca : Cca}
    (hr : Safety.Reaches i.kind s (Safety.addressOf i s) pa cca)
    (hp : ¬ Safety.Predictable i.kind s (Safety.addressOf i s) pa cca) :
    ∃ t, exec i s = .next t ∧
      Safety.Completed (Safety.destOf i) pa (Safety.bytesOf i s) (Config.draw s.draws) s t ∧
      t.draws = s.draws + 1 := by
  obtain ⟨t, ht, hc, hd⟩ := exec_of_reaches hr
  have hv := scVerdict_of_not_predictable hp
  rw [commitSuccess, hv] at hc
  rw [hv] at hd
  exact ⟨t, ht, hc, hd⟩

/-- The kinds of an uncached attribute are the two uncached ones (R64). -/
theorem ccaKind_uncached_iff (c : Config) (cca : Cca) :
    ccaKind c cca = .uncached ∨ ccaKind c cca = .uncachedAccelerated ↔ ccaUncached cca = true := by
  unfold ccaKind
  split
  · split <;> simp [*]
  · split <;> simp [*]

/-- The attributes that support atomic read-modify-write (R139). -/
theorem ccaSupportsRmw_iff (c : Config) (cca : Cca) :
    ccaSupportsRmw c cca = true ↔
      ccaKind c cca = .cachedCoherent ∨ (ccaKind c cca = .cachedNoncoherent ∧ c.multiprocessor = false) ∨
        ((ccaKind c cca = .uncached ∨ ccaKind c cca = .uncachedAccelerated) ∧ c.uls = true) := by
  unfold ccaSupportsRmw
  cases ccaKind c cca <;> simp

/-- The attributes that do not (R139). -/
theorem ccaSupportsRmw_eq_false_iff (c : Config) (cca : Cca) :
    ccaSupportsRmw c cca = false ↔
      (ccaKind c cca = .cachedNoncoherent ∧ c.multiprocessor = true) ∨ (ccaUncached cca = true ∧ c.uls = false) := by
  rw [← ccaKind_uncached_iff c cca, ccaSupportsRmw]
  cases ccaKind c cca <;> simp

/-! The turns of other agents and of instructions the spec does not describe. -/

/-- The turn of an instruction the spec does not describe is its event, at the state with that turn taken (log 32). -/
theorem step_foreign {s : State} {v : Word} {len : Nat} {e : ForeignEvent} {ts : List Turn}
    (hs : s.schedule = .foreign v len e :: ts) : step s = foreignStep v len e (s.withSchedule ts) := by
  rw [step, hs]

/-- The turn of another agent is its event, at the state with that turn taken (log 30). -/
theorem step_environment {s : State} {e : EnvEvent} {ts : List Turn}
    (hs : s.schedule = .environment e :: ts) : step s = environmentStep e (s.withSchedule ts) := by
  rw [step, hs]

/-- In a sequence an instruction of this processor extends the span (R132). -/
theorem noteInstruction_of_link {v : Word} {len : Nat} {s : State} {l : Link} (h : s.link = some l) :
    noteInstruction v len s = s.withSpan (some (spanWith s.span v len)) := by
  simp [noteInstruction, h]

/-- In an uncached sequence PAUSE does nothing (R145). -/
theorem pauseStep_of_uncached {s : State} {l : Link} (h : s.link = some l) (hc : ccaUncached l.cca = true) :
    pauseStep s = .next s := by
  simp [pauseStep, h, hc]

section Load

variable (own : Bool) (cca : Cca) (addrs : List Nat) (s : State)

@[simp] theorem applyAccess_load_mem : (applyAccess own (.load cca addrs) s).mem = s.mem := applyAccess_mem ..

/-- No load breaks the link (R134). -/
@[simp] theorem applyAccess_load_linkBroken : (applyAccess own (.load cca addrs) s).linkBroken = s.linkBroken := by
  cases hl : s.link with
  | none => exact applyAccess_linkBroken_of_none _ _ _ hl
  | some l => rw [applyAccess_linkBroken _ _ _ l hl, accessBreaks, Bool.or_false]

/-- A load from the block of the linked data is no may-fail event (R129, R134). -/
theorem applyAccess_load_mayFail {l : Link} (hl : s.link = some l)
    (hin : ∀ a ∈ addrs, inBlock s.cfg l a = true) :
    (applyAccess own (.load cca addrs) s).mayFail = s.mayFail := by
  have hno : accessMayFail s.cfg own l (.load cca addrs) = false := by
    simpa [accessMayFail, Access.addrs] using fun _ => hin
  rw [applyAccess_mayFail _ _ _ l hl, hno, Bool.or_false]

/-- An access with the sequence's attribute does not mix it (R141). -/
theorem applyAccess_linkMixed_of_attr (a : Access) {l : Link} (hl : s.link = some l) (ha : Access.attr a = l.cca) :
    (applyAccess own a s).linkMixed = s.linkMixed := by
  have hno : accessMixes s.cfg l a = false := by simp [accessMixes, ha]
  rw [applyAccess_linkMixed _ _ _ l hl, hno, Bool.or_false]

/-- What a load leaves of the sequence and of memory (R134). -/
theorem applyAccess_load_harmless :
    let t := applyAccess own (.load cca addrs) s
    t.link = s.link ∧ t.linkBroken = s.linkBroken ∧ t.llb = s.llb ∧ t.mem = s.mem ∧
      ∀ l, s.link = some l → ((∀ a ∈ addrs, inBlock s.cfg l a = true) → t.mayFail = s.mayFail) ∧
        (cca = l.cca → t.linkMixed = s.linkMixed) :=
  ⟨applyAccess_link .., applyAccess_load_linkBroken .., applyAccess_llb .., applyAccess_load_mem ..,
    fun _ hl => ⟨applyAccess_load_mayFail own cca addrs s hl, applyAccess_linkMixed_of_attr own s (.load cca addrs) hl⟩⟩

end Load

end Sys2Proof.Machine

namespace Sys2Proof.Proofs

open Sys2Proof.Machine Sys2Proof.Safety

/-- Settles O15: the verdict on an unpredictable result is a draw, and the commit of R100 leaves what R140 says. -/
theorem unpredictableResultIsDrawn : Obligations.UnpredictableResultIsDrawn := by
  intro i s pa cca hr hp
  obtain ⟨t, ht, hc, hd⟩ := exec_of_not_predictable hr hp
  exact ⟨t, ht, decided_of_completed hc, hd⟩

/-- Settles O18: an attribute that does not support read-modify-write makes the result unpredictable; of the two such cases
the uncached one fails the test of R65 before. -/
theorem attributesThatSupportRmw : Obligations.AttributesThatSupportRmw := by
  refine ⟨ccaSupportsRmw_iff, fun i s pa cca hr hrmw => ⟨?_, ?_⟩⟩
  · have hp : ¬ Predictable i.kind s (addressOf i s) pa cca := fun hp => by simp [hp.rmw] at hrmw
    exact unpredictableResultIsDrawn i s pa cca hr hp
  · obtain hnoncoherent | ⟨huncached, huls⟩ := (ccaSupportsRmw_eq_false_iff s.cfg cca).mp hrmw
    · exact hnoncoherent
    · simp [hr.cached ((ccaUncached_iff cca).mp huncached)] at huls

/-- Settles O39: a load's turn, by either agent, is that load done, which is harmless. -/
theorem loadInBlockIsHarmless : Obligations.LoadInBlockIsHarmless := by
  intro s t cca addrs ts v len hs h
  obtain hs | hs := hs
  · rw [step_foreign hs] at h
    obtain ⟨-, rfl⟩ := accessStep_next h
    exact applyAccess_load_harmless true cca addrs (noteInstruction v len (s.withSchedule ts))
  · rw [step_environment hs] at h
    obtain ⟨-, rfl⟩ := accessStep_next h
    exact applyAccess_load_harmless false cca addrs (s.withSchedule ts)

/-- Settles O40: the turn of an ERETNC only adds it to the sequence's span. -/
theorem eretncKeepsTheLink : Obligations.EretncKeepsTheLink := by
  intro s ts v len hs
  have hstep : step s = .next (noteInstruction v len (s.withSchedule ts)) := step_foreign hs
  exact ⟨_, hstep, rfl, rfl, rfl, rfl, rfl⟩

/-- Settles O47: in an uncached sequence the turn of a PAUSE only adds it to the span. -/
theorem pauseInUncachedSequenceIsNop : Obligations.PauseInUncachedSequenceIsNop := by
  intro s l ts v len hl hcca hs
  calc step s
      = pauseStep (noteInstruction v len (s.withSchedule ts)) := step_foreign hs
    _ = .next (noteInstruction v len (s.withSchedule ts)) := pauseStep_of_uncached hl ((ccaUncached_iff l.cca).mpr hcca)
    _ = .next ((s.withSchedule ts).withSpan (some (spanWith s.span v len))) :=
      congrArg Host.Outcome.next (noteInstruction_of_link hl)

end Sys2Proof.Proofs

/-! # Proofs of the family 60_exceptions: Reserved Instruction for an absent feature -/

namespace Sys2Proof.Machine

/-- A form whose feature is absent raises Reserved Instruction at the pc, before every other test of R100
(R161, R162, R173). -/
theorem exec_of_absent {i : Instr} {s : State}
    (habsent : (i.kind.nbytes = 8 ∧ s.cfg.xnp = true) ∨ (i.kind.isEva = true ∧ s.cfg.eva = false)) :
    exec i s = .fault (.raised .reservedInstruction s.pc) :=
  exec_of_error (scTarget_of_unavailable (scAvailable_of_absent habsent))

end Sys2Proof.Machine

namespace Sys2Proof.Proofs

open Sys2Proof.Machine

/-- Settles O27: SCWP and SCWPE access 8 bytes, so `XNP = 1` makes both absent. -/
theorem pairNeedsXnpClear : Obligations.PairNeedsXnpClear :=
  fun _ _ _ _ hxnp => ⟨exec_of_absent (.inl ⟨rfl, hxnp⟩), exec_of_absent (.inl ⟨rfl, hxnp⟩)⟩

/-- Settles O28: SCE and SCWPE are the EVA forms, so `EVA = 0` makes both absent. -/
theorem evaFormsNeedEva : Obligations.EvaFormsNeedEva :=
  fun _ _ _ _ _ heva => ⟨exec_of_absent (.inr ⟨rfl, heva⟩), exec_of_absent (.inr ⟨rfl, heva⟩)⟩

end Sys2Proof.Proofs

/-! # Proofs of the family other: the decoder and the encoder -/

namespace Sys2Proof

/-! The bits of a word: the literal bits of its format, its operands, and the `x` bits. -/

/-- A word is its literal bits and the rest. -/
theorem opcode_or_rest (w : InstrWord) : (w &&& opcodeMask) ||| (w &&& ~~~opcodeMask) = w := by
  rw [← BitVec.and_or_distrib_left, BitVec.or_not_self, BitVec.and_allOnes]

/-- A word form's fields, encoded, are the literal bits of the format and the word's other bits (R81, R82). -/
theorem encodeWordForm_fields (w : InstrWord) (a : BitVec 2) :
    encodeWordForm (fieldRt w) (fieldOffset w) (fieldRs w) a =
      (0b101001#6 ++ 0#11 ++ 0b1011#4 ++ 0#1 ++ a ++ 0#6 ++ 0b00#2) ||| (w &&& ~~~opcodeMask) := by
  apply BitVec.eq_of_getLsbD_eq
  intro j hj
  simp only [encodeWordForm, regBits, fieldRt, fieldRs, fieldOffset, opcodeMask, BitVec.ofFin_toFin, BitVec.getLsbD_or,
    BitVec.getLsbD_and, BitVec.getLsbD_append, BitVec.getLsbD_extractLsb']
  interval_cases j <;> simp

/-- A pair form's fields, encoded, are the literal bits of the format and the word's other bits but for the `x` bits
(R83, R84, R88). -/
theorem encodePairForm_fields (w : InstrWord) (a : BitVec 2) :
    encodePairForm (fieldRt w) (fieldRu w) (fieldRs w) a =
      (0b101001#6 ++ 0#11 ++ 0b1011#4 ++ 0#1 ++ a ++ 0#6 ++ 0b01#2) ||| (w &&& ~~~opcodeMask &&& ~~~xMask) := by
  apply BitVec.eq_of_getLsbD_eq
  intro j hj
  simp only [encodePairForm, regBits, fieldRt, fieldRs, fieldRu, opcodeMask, xMask, BitVec.ofFin_toFin, BitVec.getLsbD_or,
    BitVec.getLsbD_and, BitVec.getLsbD_append, BitVec.getLsbD_extractLsb']
  interval_cases j <;> simp

/-- No literal bit of a format is an `x` bit (R83, R84, R88). -/
theorem opcode_of_clear_xBits (w : InstrWord) : w &&& ~~~xMask &&& opcodeMask = w &&& opcodeMask := by
  rw [BitVec.and_assoc, show ~~~xMask &&& opcodeMask = opcodeMask by decide]

/-- The fields of a word that carries the literal bits of a kind's format encode to the word, but for the `x` bits of a pair
form (R81 to R84, R88). -/
theorem encode_instrOfFields {k : ScKind} {w : InstrWord} (h : w &&& opcodeMask = k.matchWord) :
    encode (instrOfFields k w) = if k.nbytes = 8 then w &&& ~~~xMask else w := by
  have hword (a : BitVec 2) (ha : 0b101001#6 ++ 0#11 ++ 0b1011#4 ++ 0#1 ++ a ++ 0#6 ++ 0b00#2 = k.matchWord) :
      encodeWordForm (fieldRt w) (fieldOffset w) (fieldRs w) a = w := by
    rw [encodeWordForm_fields, ha, ← h, opcode_or_rest]
  have hpair (a : BitVec 2) (ha : 0b101001#6 ++ 0#11 ++ 0b1011#4 ++ 0#1 ++ a ++ 0#6 ++ 0b01#2 = k.matchWord) :
      encodePairForm (fieldRt w) (fieldRu w) (fieldRs w) a = w &&& ~~~xMask := by
    calc encodePairForm (fieldRt w) (fieldRu w) (fieldRs w) a
        = (w &&& ~~~xMask &&& opcodeMask) ||| (w &&& ~~~xMask &&& ~~~opcodeMask) := by
          rw [encodePairForm_fields, ha, ← h, opcode_of_clear_xBits, BitVec.and_assoc w, BitVec.and_comm (~~~opcodeMask),
            ← BitVec.and_assoc w]
      _ = w &&& ~~~xMask := opcode_or_rest _
  cases k with
  | sc => exact hword 0b01#2 rfl
  | sce => exact hword 0b10#2 rfl
  | scwp => exact hpair 0b01#2 rfl
  | scwpe => exact hpair 0b10#2 rfl

/-- A word that decodes carries the literal bits of the instruction's format (R89). -/
theorem matchWord_of_decode {strictX : Bool} {w : InstrWord} {i : Instr} (h : decode strictX w = .ok i) :
    w &&& opcodeMask = i.kind.matchWord := by
  unfold decode at h
  split at h
  · cases h; assumption
  split at h
  · cases h; assumption
  split at h
  · cases decodePair_ok h; assumption
  split at h
  · cases decodePair_ok h; assumption
  · cases h

/-- The assembled offset has its two low bits zero (R86). -/
theorem offsetEncodable_fieldOffset (w : InstrWord) : offsetEncodable (fieldOffset w) = true := by
  rw [offsetEncodable, beq_iff_eq]
  exact BitVec.extractLsb'_append_eq_right

/-- Fields make a well-formed instruction, whatever the word (R86, R87). -/
theorem instrOfFields_wf (k : ScKind) (w : InstrWord) : (instrOfFields k w).wf = true := by
  cases k with
  | sc => exact offsetEncodable_fieldOffset w
  | sce => exact offsetEncodable_fieldOffset w
  | scwp => rfl
  | scwpe => rfl

/-- What decodes is well formed. -/
theorem wf_of_decode {strictX : Bool} {w : InstrWord} {i : Instr} (h : decode strictX w = .ok i) : i.wf = true := by
  rw [eq_instrOfFields_of_decode h]
  exact instrOfFields_wf ..

/-- No field of a pair form has an `x` bit (R87, R88). -/
theorem instrOfFields_clear_xBits {k : ScKind} (hk : k.nbytes = 8) (w : InstrWord) :
    instrOfFields k (w &&& ~~~xMask) = instrOfFields k w := by
  have hfield (start : Nat) (h : (~~~xMask).extractLsb' start 5 = BitVec.allOnes 5) :
      (w &&& ~~~xMask).extractLsb' start 5 = w.extractLsb' start 5 := by
    rw [BitVec.extractLsb'_and, h, BitVec.and_allOnes]
  have hrt := hfield 21 (by decide)
  have hrs := hfield 16 (by decide)
  have hru := hfield 3 (by decide)
  cases k with
  | sc => cases hk
  | sce => cases hk
  | scwp => simp only [instrOfFields, fieldRt, fieldRs, fieldRu, hrt, hrs, hru]
  | scwpe => simp only [instrOfFields, fieldRt, fieldRs, fieldRu, hrt, hrs, hru]

/-- Under `StrictX` a pair word with a nonzero `x` bit is refused (R88). -/
theorem decode_nonzeroX {k : ScKind} {w : InstrWord} (h : w &&& opcodeMask = k.matchWord) (hk : k.nbytes = 8)
    (hx : w &&& xMask ≠ 0#32) : decode true w = .error .nonzeroX := by
  cases k with
  | sc => cases hk
  | sce => cases hk
  | scwp => simp [decode, h, ScKind.matchWord, decodePair, hx]
  | scwpe => simp [decode, h, ScKind.matchWord, decodePair, hx]

/-- A word with the literal bits of no format is refused (R90). -/
theorem decode_notDescribed {strictX : Bool} {w : InstrWord} (h : ∀ k : ScKind, w &&& opcodeMask ≠ k.matchWord) :
    decode strictX w = .error .notDescribed := by
  simp [decode, h]

/-- The value of the assembled offset (R86). -/
theorem fieldOffset_toInt (w : InstrWord) :
    (fieldOffset w).toInt = 4 * ((w.extractLsb' 2 6).toNat : Int) - 256 * ((w.extractLsb' 15 1).toNat : Int) := by
  have hnat : (fieldOffset w).toNat = 256 * (w.extractLsb' 15 1).toNat + 4 * (w.extractLsb' 2 6).toNat := by
    rw [fieldOffset, BitVec.toNat_append, BitVec.toNat_append, ← Nat.shiftLeft_add_eq_or_of_lt (0#2).isLt,
      ← Nat.shiftLeft_add_eq_or_of_lt (w.extractLsb' 2 6).isLt, Nat.shiftLeft_eq, Nat.shiftLeft_eq, BitVec.toNat_zero]
    omega
  have hsign := (w.extractLsb' 15 1).isLt
  have hlow := (w.extractLsb' 2 6).isLt
  rw [BitVec.toInt_eq_toNat_cond, hnat]
  split <;> omega

end Sys2Proof

namespace Sys2Proof.Proofs

open Sys2Proof.Machine Sys2Proof.Safety

/-- Settles O1: the encoded word carries the literal bits of its format, its `x` bits are 0, and its fields are the operands. -/
theorem decodeOfEncode : Obligations.DecodeOfEncode := fun strictX _ h => decode_encode strictX h

/-- Settles O2: what decodes has the word's fields as operands, and literal bits and fields together are the word. -/
theorem encodeOfDecode : Obligations.EncodeOfDecode := by
  intro strictX w i h
  have hi := eq_instrOfFields_of_decode h
  refine ⟨wf_of_decode h, ?_⟩
  calc encode i = encode (instrOfFields i.kind w) := congrArg encode hi
    _ = if i.kind.nbytes = 8 then w &&& ~~~xMask else w := encode_instrOfFields (matchWord_of_decode h)

/-- Settles O3: each pattern is the format of one kind, and the four kinds are all there are. -/
theorem decodeByMaskAndMatch : Obligations.DecodeByMaskAndMatch := by
  intro w
  have hdecode (k : ScKind) (h : w &&& opcodeMask = k.matchWord) : decode false w = .ok (instrOfFields k w) :=
    decode_of_matchWord h fun _ => .inl rfl
  refine ⟨hdecode .sc, hdecode .sce, hdecode .scwp, hdecode .scwpe, fun hsc hsce hscwp hscwpe => ?_⟩
  refine decode_notDescribed fun k => ?_
  cases k with
  | sc => exact hsc
  | sce => exact hsce
  | scwp => exact hscwp
  | scwpe => exact hscwpe

/-- Settles O4: the value of the offset is that of its 6-bit and its 1-bit field, the latter the sign. -/
theorem offsetValue : Obligations.OffsetValue := by
  intro w s rs
  have hvalue := fieldOffset_toInt w
  have hlow := (w.extractLsb' 2 6).isLt
  have hsign := (w.extractLsb' 15 1).isLt
  exact ⟨hvalue, by omega, by omega, by omega, rfl⟩

/-- Settles O6: neither the literal bits of a pair word nor its fields have an `x` bit. -/
theorem pairIgnoresXBits : Obligations.PairIgnoresXBits := by
  intro w v hwv hw
  obtain ⟨k, hk, hm⟩ : ∃ k : ScKind, k.nbytes = 8 ∧ w &&& opcodeMask = k.matchWord := by
    rcases hw with h | h
    · exact ⟨.scwp, rfl, h⟩
    · exact ⟨.scwpe, rfl, h⟩
  have hv : v &&& opcodeMask = k.matchWord := by
    rw [← opcode_of_clear_xBits, ← hwv, opcode_of_clear_xBits, hm]
  have hfields : instrOfFields k v = instrOfFields k w := by
    rw [← instrOfFields_clear_xBits hk, ← hwv, instrOfFields_clear_xBits hk]
  have hdecode : decode false w = .ok (instrOfFields k w) := decode_of_matchWord hm fun _ => .inl rfl
  refine ⟨?_, fun i hi => ?_, ?_⟩
  · rw [hdecode, decode_of_matchWord hv fun _ => .inl rfl, hfields]
  · cases hdecode.symm.trans hi
    exact encode_xBits (by rw [instrOfFields_kind, hk])
  · split
    · rw [hdecode, decode_of_matchWord hm fun _ => .inr ‹_›]
    · exact decode_nonzeroX hm hk ‹_›

/-- Settles O7: the decoder, evaluated at each of the words. -/
theorem vectorWordsDecode : Obligations.VectorWordsDecode := ⟨rfl, rfl, rfl, rfl, rfl, rfl⟩

end Sys2Proof.Proofs

/-! # Proofs of the family other: what every step keeps -/

namespace Sys2Proof.Machine

/-! What one turn can do: the commit of an instruction in scope, or the trace of another turn. -/

/-- The bytes a store writes are among the addresses it touches. -/
theorem map_fst_cells_subset_addrs (a : Access) : (Access.cells a).map Prod.fst ⊆ Access.addrs a := by
  cases a with
  | load cca addrs => exact List.nil_subset _
  | coherentStore cca cells => exact List.Subset.refl _
  | nonCoherentStore cca cells => exact List.Subset.refl _

/-- Only an uncached sequence is mixed by an access (R141). -/
theorem uncached_of_accessMixes {c : Config} {l : Link} {a : Access} (h : accessMixes c l a = true) :
    ccaUncached l.cca = true := by
  simp only [accessMixes, Bool.and_eq_true] at h
  obtain ⟨⟨huncached, -⟩, -⟩ := h
  exact huncached

/-- What a turn of another agent, or of an instruction the spec does not describe, can do to the state: store bytes at
addresses that exist, leave or replace the link record, and mix an uncached sequence (R2 (g), R141, R151, R152). -/
structure OtherTurn (s t : State) : Prop where
  cfg : t.cfg = s.cfg
  mode : t.mode = s.mode
  text : t.text = s.text
  pc : t.pc = s.pc
  stores : ∃ cells : List Host.Cell, (∀ p ∈ cells.map Prod.fst, physExists s.cfg p 1 = true) ∧
    t.mem = Memory.writeCells s.mem cells
  link : (t.link = s.link ∧ (t.linkMixed = s.linkMixed ∨ ∃ l, s.link = some l ∧ ccaUncached l.cca = true)) ∨
    ((∃ l, t.link = some l ∧ l.nbytes = LinkKind.nbytes l.kind) ∧ t.linkMixed = false)

/-- An access whose addresses exist. -/
theorem otherTurn_applyAccess (own : Bool) {a : Access} {s : State}
    (h : ∀ p ∈ Access.addrs a, physExists s.cfg p 1 = true) : OtherTurn s (applyAccess own a s) where
  cfg := applyAccess_cfg ..
  mode := applyAccess_mode ..
  text := applyAccess_text ..
  pc := applyAccess_pc ..
  stores := ⟨Access.cells a, fun p hp => h p (map_fst_cells_subset_addrs a hp), applyAccess_mem ..⟩
  link := by
    refine .inl ⟨applyAccess_link .., ?_⟩
    cases hl : s.link with
    | none => exact .inl (applyAccess_linkMixed_of_none _ _ _ hl)
    | some l =>
      rw [applyAccess_linkMixed _ _ _ l hl]
      cases hm : accessMixes s.cfg l a with
      | false => exact .inl (Bool.or_false _)
      | true => exact .inr ⟨l, rfl, uncached_of_accessMixes hm⟩

/-- A turn that touches no memory, no link record and no `link_mixed`. -/
theorem otherTurn_of_kept {s t : State} (hcfg : t.cfg = s.cfg) (hmode : t.mode = s.mode) (htext : t.text = s.text)
    (hpc : t.pc = s.pc) (hmem : t.mem = s.mem) (hlink : t.link = s.link) (hmixed : t.linkMixed = s.linkMixed) :
    OtherTurn s t :=
  ⟨hcfg, hmode, htext, hpc, ⟨[], by simp, hmem⟩, .inl ⟨hlink, .inl hmixed⟩⟩

/-- Every turn of another agent. -/
theorem otherTurn_of_environmentStep {e : EnvEvent} {s t : State} (h : environmentStep e s = .next t) : OtherTurn s t := by
  rcases environmentStep_next h with ⟨a, rfl, ha, rfl⟩ | ⟨rfl, rfl⟩ | ⟨rfl, rfl⟩
  · exact otherTurn_applyAccess false ha
  · exact otherTurn_of_kept rfl rfl rfl rfl rfl rfl (noteMayFail_linkMixed _)
  · exact otherTurn_of_kept rfl rfl rfl rfl rfl rfl rfl

/-- Every turn of an instruction the spec does not describe. -/
theorem otherTurn_of_foreignStep {v : Word} {len : Nat} {e : ForeignEvent} {s t : State}
    (h : foreignStep v len e s = .next t) : OtherTurn s t := by
  rcases foreignStep_next h with ⟨a, rfl, ha, rfl⟩ | ⟨k, va, pa, cca, rfl, rfl⟩ | ⟨-, rfl⟩ | ⟨rfl, rfl⟩ | ⟨-, rfl⟩
  · obtain ⟨hcfg, hmode, htext, hpc, hmem, hlink⟩ := otherTurn_applyAccess true (s := noteInstruction v len s) ha
    exact ⟨hcfg, hmode, htext, hpc, hmem, hlink⟩
  · exact ⟨rfl, rfl, rfl, rfl, ⟨[], by simp, rfl⟩, .inr ⟨⟨_, rfl, rfl⟩, rfl⟩⟩
  · exact otherTurn_of_kept rfl rfl rfl rfl rfl rfl (noteMayFail_linkMixed _)
  · exact otherTurn_of_kept rfl rfl rfl rfl rfl rfl (Bool.or_false _)
  · exact otherTurn_of_kept rfl rfl rfl rfl rfl rfl rfl

/-- WHAT A STEP CAN DO: on the processor's turn complete an instruction in scope, else what `OtherTurn` says. -/
theorem step_next {s t : State} (h : step s = .next t) :
    ((s.schedule = [] ∨ ∃ ts, s.schedule = .processor :: ts) ∧
        ∃ i, exec i (s.withSchedule s.schedule.tail) = .next t) ∨
      ((∃ x ts, s.schedule = x :: ts ∧ x ≠ .processor) ∧ OtherTurn s t) := by
  have hown (hturn : s.schedule = [] ∨ ∃ ts, s.schedule = .processor :: ts) :
      ∃ i, exec i (s.withSchedule s.schedule.tail) = .next t := by
    rw [step_of_processorTurn hturn] at h
    obtain ⟨w, i, -, -, hi⟩ := instructionStep_next h
    exact ⟨i, hi⟩
  rcases step_cases h with ⟨hs, -⟩ | ⟨ts, hs, -⟩ | ⟨v, len, e, ts, hs, he⟩ | ⟨e, ts, hs, he⟩
  · exact .inl ⟨.inl hs, hown (.inl hs)⟩
  · exact .inl ⟨.inr ⟨ts, hs⟩, hown (.inr ⟨ts, hs⟩)⟩
  · obtain ⟨hcfg, hmode, htext, hpc, hmem, hlink⟩ := otherTurn_of_foreignStep he
    exact .inr ⟨⟨_, ts, hs, Turn.noConfusion⟩, hcfg, hmode, htext, hpc, hmem, hlink⟩
  · obtain ⟨hcfg, hmode, htext, hpc, hmem, hlink⟩ := otherTurn_of_environmentStep he
    exact .inr ⟨⟨_, ts, hs, Turn.noConfusion⟩, hcfg, hmode, htext, hpc, hmem, hlink⟩

/-! What each kind of turn keeps. -/

/-- A completed instruction leaves memory or writes existing bytes of it (R52, R109; log 13). -/
theorem mem_of_exec {i : Instr} {s t : State} (h : exec i s = .next t) :
    t.mem = s.mem ∨ ∃ (pa : Nat) (w : Nat) (datum : BitVec w), pa + i.kind.nbytes ≤ 2 ^ s.cfg.paBits ∧
      t.mem = memWrite s.cfg.be s.mem pa i.kind.nbytes datum := by
  obtain ⟨pa, cca, w, datum, hr, rfl⟩ := exec_next h
  rw [scCommit_mem]
  split
  · exact .inr ⟨pa, w, datum, hr.exists_, rfl⟩
  · exact .inl rfl

/-- What a completed instruction leaves of configuration, mode, text and pc. -/
theorem frame_of_exec {i : Instr} {s t : State} (h : exec i s = .next t) :
    t.cfg = s.cfg ∧ t.mode = s.mode ∧ t.text = s.text ∧ t.pc = s.pc + 4#32 := by
  obtain ⟨pa, cca, w, datum, -, rfl⟩ := exec_next h
  exact ⟨rfl, rfl, rfl, rfl⟩

/-- A completed instruction leaves no link and no mixed sequence (R112, R113). -/
theorem link_of_exec {i : Instr} {s t : State} (h : exec i s = .next t) : t.link = none ∧ t.linkMixed = false := by
  obtain ⟨pa, cca, w, datum, -, rfl⟩ := exec_next h
  exact ⟨rfl, rfl⟩

/-- Every step keeps memory in canonical form (log 8). -/
theorem step_keeps_memWf {s t : State} (hwf : cellsWf s.mem = true) (h : step s = .next t) : cellsWf t.mem = true := by
  rcases step_next h with ⟨-, i, hi⟩ | ⟨-, ho⟩
  · rcases mem_of_exec hi with hmem | ⟨pa, w, datum, -, hmem⟩
    · rw [hmem]; exact hwf
    · rw [hmem]; exact memWrite_wf _ _ _ _ _ hwf
  · obtain ⟨cells, -, hmem⟩ := ho.stores
    rw [hmem]
    exact writeCells_wf _ _ hwf

/-- No step changes configuration, mode or text. -/
theorem step_keeps_cfg_mode_text {s t : State} (h : step s = .next t) :
    t.cfg = s.cfg ∧ t.mode = s.mode ∧ t.text = s.text := by
  rcases step_next h with ⟨-, i, hi⟩ | ⟨-, ho⟩
  · obtain ⟨hcfg, hmode, htext, -⟩ := frame_of_exec hi
    exact ⟨hcfg, hmode, htext⟩
  · exact ⟨ho.cfg, ho.mode, ho.text⟩

/-- Every step keeps every listed byte at an address that exists (log 13). -/
theorem step_keeps_memBound {s t : State} (hb : ∀ c ∈ s.mem, c.1 < 2 ^ s.cfg.paBits) (h : step s = .next t) :
    ∀ c ∈ t.mem, c.1 < 2 ^ s.cfg.paBits := by
  intro c hc
  rcases step_next h with ⟨-, i, hi⟩ | ⟨-, ho⟩
  · rcases mem_of_exec hi with hmem | ⟨pa, w, datum, hx, hmem⟩
    · rw [hmem] at hc
      exact hb c hc
    · rw [hmem] at hc
      rcases mem_writeBytes _ _ _ c hc with hold | hnew
      · exact hb c hold
      · rw [dataBytes_length] at hnew
        exact Nat.lt_of_lt_of_le hnew hx
  · obtain ⟨cells, hx, hmem⟩ := ho.stores
    rw [hmem] at hc
    rcases mem_writeCells _ _ c hc with hold | hnew
    · exact hb c hold
    · simpa [physExists] using hx c.1 hnew

/-- Four more is even again (R24). -/
theorem pcEven_add_four (pc : Word) : pcEven (pc + 4#32) = pcEven pc := by
  have hmod : (pc + 4#32).toNat % 2 = pc.toNat % 2 := by
    rw [BitVec.toNat_add, show (4#32).toNat = 4 from rfl]
    omega
  simp only [pcEven, BitVec.getLsbD, Nat.testBit_zero, hmod]

/-- What every step keeps, every run keeps. -/
theorem run_keeps {P : State → Prop} (hstep : ∀ s t, P s → step s = .next t → P t) (n : Nat) :
    ∀ s t : State, P s → Host.Core.run Sys2Proof.core n s = .next t → P t := by
  induction n with
  | zero =>
    intro s t hs h
    cases h
    exact hs
  | succ n ih =>
    intro s t hs h
    obtain ⟨s', hs', hrun⟩ := run_succ h
    exact ih s' t (hstep s s' hs hs') hrun

/-! Where the processor's turn stops. -/

/-- Nothing is run at an odd pc (R57). -/
theorem instructionStep_of_odd {s : State} (h : pcEven s.pc = false) : instructionStep s = .fault (.oddPc s.pc) := by
  simp [instructionStep, fetch, h]

/-- At `EndPc` outside the text the run has ended (R198). -/
theorem instructionStep_of_ended {s : State} (hpc : pcEven s.pc = true) (hw : cellsLookup s.text s.pc.toNat = none)
    (hend : s.pc = s.cfg.endPc) : instructionStep s = .refused .endOfRun := by
  have hf : fetch s = .ended := by rw [fetch, hw, hpc, if_pos hend]; rfl
  rw [instructionStep, hf]

/-- At any other address outside the text the processor is stuck (R96). -/
theorem instructionStep_of_stuck {s : State} (hpc : pcEven s.pc = true) (hw : cellsLookup s.text s.pc.toNat = none)
    (hend : s.pc ≠ s.cfg.endPc) : instructionStep s = .fault (.stuck s.pc) := by
  have hf : fetch s = .stuck := by rw [fetch, hw, hpc, if_neg hend]; rfl
  rw [instructionStep, hf]

/-- A word that does not decode is refused by name (R88, R90). -/
theorem instructionStep_of_undecoded {s : State} {w : InstrWord} {u : Undecoded} (hf : fetch s = .word w)
    (hd : decode s.cfg.strictX w = .error u) : instructionStep s = .refused (undecodedRefusal u w) := by
  simp [instructionStep, hf, executeWord, hd]

/-- Every form accesses at least one byte (R81 to R84). -/
theorem nbytes_pos (k : ScKind) : 0 < k.nbytes := by cases k <;> decide

/-- Bytes at `va` within a range that misses the text miss the text (R69). -/
theorem storesIntoText_of_within {s : State} {base va : Word} {size n : Nat} (hn : 0 < n)
    (hbase : Safety.storesIntoText s base size = false) (hin : (va - base).toNat + n ≤ size) :
    Safety.storesIntoText s va n = false := by
  simp only [Safety.storesIntoText, List.any_eq_false, Bool.or_eq_true, decide_eq_true_eq, not_or, Nat.not_lt] at hbase ⊢
  intro c hc
  obtain ⟨hbelow, habove⟩ := hbase c hc
  generalize BitVec.ofNat 32 c.1 = p at *
  simp only [BitVec.toNat_sub] at *
  omega

end Sys2Proof.Machine

namespace Sys2Proof.Proofs

open Sys2Proof.Machine Sys2Proof.Safety

/-- Settles O50: a step writes memory by insertions at addresses that its tests found to exist, and leaves the text. -/
theorem stepKeepsListsWf : Obligations.StepKeepsListsWf := by
  intro s t hwf h
  obtain ⟨hmem, htext, hbound⟩ := hwf
  obtain ⟨hcfg, -, ht⟩ := step_keeps_cfg_mode_text h
  refine ⟨step_keeps_memWf hmem h, ?_, ?_⟩
  · rw [ht]
    exact htext
  · rw [hcfg]
    exact step_keeps_memBound hbound h

/-- Settles O52: an instruction in scope leaves no link, a load-linked turn a new record, and every other turn the old one,
which it mixes only if it is uncached. -/
theorem stepKeepsLinkWf : Obligations.StepKeepsLinkWf := by
  intro s t hwf h
  obtain ⟨hsize, hmixed⟩ := hwf
  rcases step_next h with ⟨-, i, hi⟩ | ⟨-, ho⟩
  · obtain ⟨hl, hm⟩ := link_of_exec hi
    exact ⟨fun l h => by simp [hl] at h, fun h => by simp [hm] at h⟩
  · rcases ho.link with ⟨hl, hm⟩ | ⟨⟨l, hl, hn⟩, hm⟩
    · rw [LinkWf, hl]
      refine ⟨hsize, fun ht => ?_⟩
      rcases hm with hm | huncached
      · exact hmixed (hm ▸ ht)
      · exact huncached
    · exact ⟨fun l' h => by cases hl.symm.trans h; exact hn, fun h => by simp [hm] at h⟩

/-- Settles O54: neither the commit of an instruction nor any other turn writes them. -/
theorem stepKeepsConfigModeText : Obligations.StepKeepsConfigModeText := fun _ _ => step_keeps_cfg_mode_text

/-- Settles O55: the commit advances the pc by 4, and every other turn leaves it. -/
theorem stepAdvancesPc : Obligations.StepAdvancesPc := by
  intro s t h
  rcases step_next h with ⟨hturn, i, hi⟩ | ⟨hturn, ho⟩
  · obtain ⟨-, -, -, hpc⟩ := frame_of_exec hi
    exact ⟨.inl ⟨hpc, hturn⟩, fun heven => by rw [hpc, pcEven_add_four]; exact heven⟩
  · exact ⟨.inr ⟨ho.pc, hturn⟩, fun heven => by rw [ho.pc]; exact heven⟩

/-- Settles O56: memory's form and the text are kept by every step, and a store within a range that misses the text misses
it. -/
theorem launchKeepsStoresOffTheText : Obligations.LaunchKeepsStoresOffTheText := by
  intro s t stores n hlaunch hrun
  obtain ⟨hmem, htext⟩ : cellsWf t.mem = true ∧ t.text = s.text := by
    refine run_keeps (P := fun t => cellsWf t.mem = true ∧ t.text = s.text) ?_ n s t ⟨hlaunch.memWf, rfl⟩ hrun
    rintro t t' ⟨hmem, htext⟩ h
    obtain ⟨-, -, ht⟩ := step_keeps_cfg_mode_text h
    exact ⟨step_keeps_memWf hmem h, ht.trans htext⟩
  refine ⟨hmem, htext, fun i hi => ?_⟩
  obtain ⟨⟨base, size⟩, hmember, hin⟩ := hi
  have hapart : storesIntoText t base size = false := by
    rw [storesIntoText, htext]
    exact hlaunch.textApart _ hmember
  exact storesIntoText_of_within (nbytes_pos i.kind) hapart hin

/-- Settles O8: what decodes is well formed, and the processor executes what the word at its pc decodes to. -/
theorem stepRunsDecodedInstruction : Obligations.StepRunsDecodedInstruction := by
  intro s w i hpc hw hd
  refine ⟨wf_of_decode hd, fun hs => ?_, fun ts hs => ?_⟩
  · rw [step, hs]
    exact instructionStep_of_decode (fetch_of_lookup hpc hw) hd
  · rw [step, hs]
    exact instructionStep_of_decode (s := s.withSchedule ts) (fetch_of_lookup hpc hw) hd

/-- Settles O9: what is fetched at the pc, or why its word does not decode, is what stops the turn. -/
theorem stepStopsOutsideTheText : Obligations.StepStopsOutsideTheText := by
  intro s hturn
  rw [step_of_processorTurn hturn]
  have hundecoded (hpc : pcEven s.pc = true) (w : InstrWord) (hw : cellsLookup s.text s.pc.toNat = some w) (u : Undecoded)
      (hd : decode s.cfg.strictX w = .error u) :
      instructionStep (s.withSchedule s.schedule.tail) = .refused (undecodedRefusal u w) :=
    instructionStep_of_undecoded (s := s.withSchedule _) (fetch_of_lookup hpc hw) hd
  refine ⟨fun hodd => instructionStep_of_odd (s := s.withSchedule s.schedule.tail) hodd,
    fun hpc w hw => ⟨hundecoded hpc w hw .notDescribed, fun hm hstrict hx => ?_⟩,
    fun hpc hw => ⟨fun hend => instructionStep_of_ended (s := s.withSchedule s.schedule.tail) hpc hw hend,
      fun hend => instructionStep_of_stuck (s := s.withSchedule s.schedule.tail) hpc hw hend⟩⟩
  refine hundecoded hpc w hw .nonzeroX ?_
  rw [hstrict]
  rcases hm with hm | hm <;> exact decode_nonzeroX hm rfl hx

/-- Settles O35: an access, a CACHE operation and a step that changes nothing here are all that another agent does. -/
theorem environmentKeepsTheProcessor : Obligations.EnvironmentKeepsTheProcessor := by
  intro s t e ts hs h
  rw [step_environment hs] at h
  rcases environmentStep_next h with ⟨a, rfl, -, rfl⟩ | ⟨rfl, rfl⟩ | ⟨rfl, rfl⟩
  · simp
  · simp
  · simp

/-- Settles O51: both lists are empty. -/
theorem resetListsWf : Obligations.ResetListsWf := ⟨rfl, rfl, fun _ h => nomatch h⟩

/-- Settles O53: there is no link and nothing is mixed. -/
theorem resetLinkWf : Obligations.ResetLinkWf := ⟨fun _ h => (nomatch h), fun h => (nomatch h)⟩

/-- Settles O57: register 0 reads zero in every state, and the rest are fields of the reset state. -/
theorem resetState : Obligations.ResetState := ⟨State.readReg_zero _, rfl, rfl, rfl⟩

end Sys2Proof.Proofs

/-! # Proofs of the family other: what an instruction leaves, and what it depends on -/

namespace Sys2Proof.Machine

/-! An instruction as its tests and its commit. -/

/-- The datum an instruction stores on success (R102 to R105). -/
def datumOf (i : Instr) (s : State) : BitVec (8 * i.kind.nbytes) :=
  match i with
  | .sc rt _ _ => wordDatum s rt
  | .sce rt _ _ => wordDatum s rt
  | .scwp rt ru _ => pairDatum s rt ru
  | .scwpe rt ru _ => pairDatum s rt ru

/-- What an instruction leaves once its tests have passed for that physical address and attribute: the commit of R100 on its
own operands (R102 to R105). -/
def commitOf (i : Instr) (pa : Nat) (cca : Cca) (s : State) : State :=
  scCommit i.kind (Safety.destOf i) (Safety.addressOf i s) pa cca (datumOf i s) s

/-- An instruction whose tests pass commits. -/
theorem exec_eq_commitOf {i : Instr} {s : State} {pa : Nat} {cca : Cca}
    (h : Safety.Reaches i.kind s (Safety.addressOf i s) pa cca) : exec i s = .next (commitOf i pa cca s) := by
  cases i <;> exact storeConditional_of_reaches h _ _

/-- An instruction either passes its tests and commits or ends as the first failing test says. -/
theorem exec_cases (i : Instr) (s : State) :
    (∃ pa cca, Safety.Reaches i.kind s (Safety.addressOf i s) pa cca ∧ exec i s = .next (commitOf i pa cca s)) ∨
      ∃ e, scTarget i.kind (Safety.addressOf i s) s = .error e ∧ exec i s = e.outcome := by
  cases ht : scTarget i.kind (Safety.addressOf i s) s with
  | error e => exact .inr ⟨e, rfl, exec_of_error ht⟩
  | ok r =>
    obtain ⟨pa, cca⟩ := r
    have hr := (scTarget_ok_iff ..).mp ht
    exact .inl ⟨pa, cca, hr, exec_eq_commitOf hr⟩

/-- The outcome of an instruction depends on the state through its tests and its commit alone. -/
theorem exec_congr_of_scTarget {i : Instr} {s s' : State}
    (h : scTarget i.kind (Safety.addressOf i s') s' = scTarget i.kind (Safety.addressOf i s) s) :
    (∀ t, exec i s = .next t → ∃ pa cca, t = commitOf i pa cca s ∧ exec i s' = .next (commitOf i pa cca s')) ∧
      (∀ f, exec i s = .fault f → exec i s' = .fault f) ∧ (∀ r, exec i s = .refused r → exec i s' = .refused r) := by
  rcases exec_cases i s with ⟨pa, cca, hr, hx⟩ | ⟨e, he, hx⟩
  · have hr' : Safety.Reaches i.kind s' (Safety.addressOf i s') pa cca := by
      rw [← scTarget_ok_iff, h, scTarget_ok_iff]
      exact hr
    rw [hx, exec_eq_commitOf hr']
    exact ⟨fun t ht => ⟨pa, cca, by cases ht; rfl, rfl⟩, nofun, nofun⟩
  · have hx' : exec i s' = exec i s := by rw [hx, exec_of_error (h.trans he)]
    rw [hx']
    refine ⟨fun t ht => ?_, fun _ => id, fun _ => id⟩
    obtain ⟨pa, cca, w, datum, hr, -⟩ := exec_next ht
    cases he.symm.trans ((scTarget_ok_iff ..).mpr hr)

/-- A completed instruction has passed its tests and leaves what R100 says. -/
theorem completed_of_exec {i : Instr} {s t : State} (h : exec i s = .next t) :
    ∃ pa cca, Safety.Reaches i.kind s (Safety.addressOf i s) pa cca ∧
      Safety.Completed (Safety.destOf i) pa (Safety.bytesOf i s)
        (commitSuccess s i.kind (Safety.addressOf i s) pa cca) s t := by
  obtain ⟨pa, cca, w, datum, hr, -⟩ := exec_next h
  obtain ⟨t', ht', hc, -⟩ := exec_of_reaches hr
  cases ht'.symm.trans h
  exact ⟨pa, cca, hr, hc⟩

/-- An instruction whose tests pass completes with the success bit of its verdict (R122). -/
theorem exec_of_verdict {i : Instr} {s : State} {pa : Nat} {cca : Cca} {v : Verdict}
    (hr : Safety.Reaches i.kind s (Safety.addressOf i s) pa cca)
    (hv : scVerdict s i.kind (Safety.addressOf i s) pa cca = v) :
    ∃ t, exec i s = .next t ∧
      Safety.Completed (Safety.destOf i) pa (Safety.bytesOf i s) (v.success s.draws) s t ∧
      t.draws = if v.isDraw then s.draws + 1 else s.draws := by
  subst hv
  exact exec_of_reaches hr

/-- The register file after a completed instruction: the old one with the result written (R100 step 13). -/
theorem gpr_of_exec {i : Instr} {s t : State} (h : exec i s = .next t) :
    ∃ success, t.gpr = (s.writeReg (Safety.destOf i) (resultWord success)).gpr := by
  obtain ⟨pa, cca, w, datum, -, rfl⟩ := exec_next h
  exact ⟨_, scCommit_gpr ..⟩

/-- The result 0 tells of failure (R121). -/
theorem failure_of_result_zero {rt : Reg} {pa : Nat} {bytes : List Byte} {success : Bool} {s t : State}
    (h : Safety.Completed rt pa bytes success s t) (hrt : rt ≠ 0) (h0 : t.readReg rt = 0#32) : success = false := by
  rw [h.result, if_neg hrt] at h0
  by_contra hs
  simp [hs] at h0

/-- With an intact link and a predictable result the store is certain to succeed under `AssumeProgress` with no may-fail event,
and else drawn (R122, R135). -/
theorem scVerdict_of_intact {k : ScKind} {s : State} {va : Word} {pa : Nat} {cca : Cca}
    (hp : Safety.Predictable k s va pa cca) (hl : s.llb = true) (hb : s.linkBroken = false) :
    scVerdict s k va pa cca = if s.cfg.assumeProgress = true ∧ s.mayFail = false ∧
      (spanWith s.span s.pc 4).last < (spanWith s.span s.pc 4).first + 2048 then .forced true else .drawn := by
  rw [scVerdict, (predictableResult_iff s k va pa cca).mpr hp, hl, hb, mayFailEvent, spanTooLong]
  simp

/-! What an instruction does not look at: registers it does not name, and memory. -/

/-- Writes to two registers commute. -/
theorem writeReg_comm (s : State) {r q : Reg} (h : r ≠ q) (v w : Word) :
    (s.writeReg r v).writeReg q w = (s.writeReg q w).writeReg r v := by
  have hv : r.val ≠ q.val := fun e => h (Fin.ext e)
  by_cases hr : r = 0 <;> by_cases hq : q = 0 <;> simp [State.writeReg, hr, hq]
  exact Vector.set_comm _ _ hv

/-- A register that is not the result's is carried through the commit (R23). -/
theorem scCommit_writeReg {w : Nat} (k : ScKind) {rt r : Reg} (h : r ≠ rt) (va : Word) (pa : Nat) (cca : Cca)
    (datum : BitVec w) (s : State) (v : Word) :
    scCommit k rt va pa cca datum (s.writeReg r v) = (scCommit k rt va pa cca datum s).writeReg r v :=
  congrArg (fun x : State => (x.clearLink.advancePc).countDraw (scVerdict s k va pa cca).isDraw)
    (writeReg_comm (s.withMem (scCommit k rt va pa cca datum s).mem) h v
      (resultWord (commitSuccess s k va pa cca)))

/-! Address and datum after a write to another register than their own. -/

section Unused

variable (s : State) (r : Reg) (v : Word)

theorem wordAddress_writeReg {rs : Reg} (h : r ≠ rs) (offset : BitVec 9) :
    wordAddress (s.writeReg r v) rs offset = wordAddress s rs offset := by
  rw [wordAddress, wordAddress, State.readReg_writeReg_ne _ _ _ _ h.symm]

theorem pairAddress_writeReg {rs : Reg} (h : r ≠ rs) : pairAddress (s.writeReg r v) rs = pairAddress s rs :=
  State.readReg_writeReg_ne _ _ _ _ h.symm

theorem wordDatum_writeReg {rt : Reg} (h : r ≠ rt) : wordDatum (s.writeReg r v) rt = wordDatum s rt :=
  State.readReg_writeReg_ne _ _ _ _ h.symm

theorem pairDatum_writeReg {rt ru : Reg} (ht : r ≠ rt) (hu : r ≠ ru) :
    pairDatum (s.writeReg r v) rt ru = pairDatum s rt ru := by
  rw [pairDatum, pairDatum, State.readReg_writeReg_ne _ _ _ _ ht.symm, State.readReg_writeReg_ne _ _ _ _ hu.symm,
    State.writeReg_cfg]

end Unused

/-- A register an instruction does not name is not the result's, and is in neither its address nor its datum (R23). -/
theorem operands_writeReg {i : Instr} {r : Reg} (h : Safety.usesReg i r = false) (s : State) (v : Word) :
    r ≠ Safety.destOf i ∧ Safety.addressOf i (s.writeReg r v) = Safety.addressOf i s ∧
      datumOf i (s.writeReg r v) = datumOf i s := by
  cases i with
  | sc rt offset rs =>
    obtain ⟨ht, hs⟩ : r ≠ rt ∧ r ≠ rs := by simpa [Safety.usesReg] using h
    exact ⟨ht, wordAddress_writeReg s r v hs offset, wordDatum_writeReg s r v ht⟩
  | sce rt offset rs =>
    obtain ⟨ht, hs⟩ : r ≠ rt ∧ r ≠ rs := by simpa [Safety.usesReg] using h
    exact ⟨ht, wordAddress_writeReg s r v hs offset, wordDatum_writeReg s r v ht⟩
  | scwp rt ru rs =>
    obtain ⟨⟨ht, hu⟩, hs⟩ : (r ≠ rt ∧ r ≠ ru) ∧ r ≠ rs := by simpa [Safety.usesReg] using h
    exact ⟨ht, pairAddress_writeReg s r v hs, pairDatum_writeReg s r v ht hu⟩
  | scwpe rt ru rs =>
    obtain ⟨⟨ht, hu⟩, hs⟩ : (r ≠ rt ∧ r ≠ ru) ∧ r ≠ rs := by simpa [Safety.usesReg] using h
    exact ⟨ht, pairAddress_writeReg s r v hs, pairDatum_writeReg s r v ht hu⟩

/-- A register an instruction does not name is carried through its commit (R23). -/
theorem commitOf_writeReg {i : Instr} {r : Reg} (h : Safety.usesReg i r = false) (pa : Nat) (cca : Cca) (s : State) (v : Word) :
    commitOf i pa cca (s.writeReg r v) = (commitOf i pa cca s).writeReg r v := by
  obtain ⟨hdest, haddress, hdatum⟩ := operands_writeReg h s v
  rw [commitOf, haddress, hdatum, scCommit_writeReg _ hdest, commitOf]

/-- An instruction forms its address from the registers alone. -/
theorem addressOf_congr {s s' : State} (h : s'.gpr = s.gpr) (i : Instr) : Safety.addressOf i s' = Safety.addressOf i s := by
  cases i <;> simp only [Safety.addressOf, wordAddress, pairAddress, State.readReg_congr h]

/-- The contents of memory touch nothing of the commit but memory (R52, R58). -/
theorem commitOf_withMem (i : Instr) (pa : Nat) (cca : Cca) (s : State) (m : Memory) :
    commitOf i pa cca (s.withMem m) = (commitOf i pa cca s).withMem (commitOf i pa cca (s.withMem m)).mem := by
  cases i <;> rfl

/-! Reading back a pair of words. -/

/-- Bytes that are two lists, one after the other, are each list in its place. -/
theorem read_append {m : Memory} {pa n : Nat} {xs ys : List Byte} (hn : xs.length = n)
    (h : ∀ j, (hj : j < (xs ++ ys).length) → m.read (pa + j) = some (xs ++ ys)[j]) :
    (∀ j, (hj : j < xs.length) → m.read (pa + j) = some xs[j]) ∧
      (∀ j, (hj : j < ys.length) → m.read (pa + n + j) = some ys[j]) := by
  subst hn
  refine ⟨fun j hj => ?_, fun j hj => ?_⟩
  · rw [h j (by rw [List.length_append]; omega), List.getElem_append_left hj]
  · rw [Nat.add_assoc, h (xs.length + j) (by simpa using hj), List.getElem_append_right (by omega)]
    simp

end Sys2Proof.Machine

namespace Sys2Proof.Proofs

open Sys2Proof.Machine Sys2Proof.Safety

/-- Settles O11: tests passed, the instruction commits, and the commit leaves what R100 says. -/
theorem wordFormsComplete : Obligations.WordFormsComplete := by
  intro rt rs offset s pa cca
  refine ⟨fun hr => ?_, fun hr => ?_⟩
  · obtain ⟨t, ht, hc, -⟩ := exec_of_reaches (i := .sc rt offset rs) hr
    exact ⟨_, t, ht, hc⟩
  · obtain ⟨t, ht, hc, -⟩ := exec_of_reaches (i := .sce rt offset rs) hr
    exact ⟨_, t, ht, hc⟩

/-- Settles O12: as for the word forms, the 8 bytes of the datum being those of the two words. -/
theorem pairFormsComplete : Obligations.PairFormsComplete := by
  intro rt ru rs s pa cca
  rw [← pairDatum_bytes]
  refine ⟨fun hr => ?_, fun hr => ?_⟩
  · obtain ⟨t, ht, hc, -⟩ := exec_of_reaches (i := .scwp rt ru rs) hr
    exact ⟨_, t, ht, hc⟩
  · obtain ⟨t, ht, hc, -⟩ := exec_of_reaches (i := .scwpe rt ru rs) hr
    exact ⟨_, t, ht, hc⟩

/-- Settles O13: only the commit answers a next state, it does so once the tests pass, and translation is a function. -/
theorem completesExactlyWhenReached : Obligations.CompletesExactlyWhenReached := by
  refine fun i s => ⟨⟨fun ⟨t, ht⟩ => ?_, fun ⟨pa, cca, hr⟩ => ⟨_, exec_eq_commitOf hr⟩⟩,
    fun pa cca pa' cca' hr hr' => ?_⟩
  · obtain ⟨pa, cca, hr, -⟩ := completed_of_exec ht
    exact ⟨pa, cca, hr⟩
  · cases hr.mapped.symm.trans hr'.mapped
    exact ⟨rfl, rfl⟩

/-- Settles O14: the success bit is what the result says and what memory shows. -/
theorem resultTellsTheWrite : Obligations.ResultTellsTheWrite := by
  intro i s t pa cca hrt hr h
  obtain ⟨t', ht', hc, -⟩ := exec_of_reaches hr
  cases ht'.symm.trans h
  have hresult := hc.result
  rw [if_neg hrt] at hresult
  cases hs : commitSuccess s i.kind (addressOf i s) pa cca with
  | true => exact .inl ⟨by rw [hresult, hs, if_pos rfl], hc.written hs⟩
  | false => exact .inr ⟨by rw [hresult, hs]; rfl, hc.kept hs⟩

/-- Settles O16: the verdict is the forced 0, which takes no draw. -/
theorem brokenLinkForcesFailure : Obligations.BrokenLinkForcesFailure :=
  fun _ _ _ _ hr hp hbroken => exec_of_verdict hr (scVerdict_of_broken hp hbroken)

/-- Settles O17: the verdict is the forced 1 in the first case and a draw in the second. -/
theorem intactLinkSucceedsOrDraws : Obligations.IntactLinkSucceedsOrDraws := by
  intro i s pa cca hr hp hllb hbroken
  have hv := scVerdict_of_intact hp hllb hbroken
  split
  · exact exec_of_verdict hr (hv.trans (if_pos ‹_›))
  · exact exec_of_verdict hr (hv.trans (if_neg ‹_›))

/-- Settles O19: the result 1 tells that the bytes were written, and bytes written read back as the words they are of. -/
theorem storedWordsReadBack : Obligations.StoredWordsReadBack := by
  intro rt ru rs offset s t pa cca hrt hone
  have hwritten (i : Instr) (hi : destOf i = rt) (hr : Reaches i.kind s (addressOf i s) pa cca) (h : exec i s = .next t) :
      ∀ j, (hj : j < (bytesOf i s).length) → t.mem.read (pa + j) = some (bytesOf i s)[j] := by
    subst hi
    rcases resultTellsTheWrite i s t pa cca hrt hr h with ⟨-, hw⟩ | ⟨hzero, -⟩
    · exact hw
    · simp [hone] at hzero
  have hpair (h : ∀ j, (hj : j < (dataBytes s.cfg.be 8 (pairDatum s rt ru)).length) →
      t.mem.read (pa + j) = some (dataBytes s.cfg.be 8 (pairDatum s rt ru))[j]) :
      memRead s.cfg.be t.mem pa 4 = some (s.readReg rt) ∧ memRead s.cfg.be t.mem (pa + 4) 4 = some (s.readReg ru) := by
    rw [pairDatum_bytes] at h
    obtain ⟨hfirst, hsecond⟩ := read_append (dataBytes_length ..) h
    exact ⟨memRead_of_bytes _ 4 _ _ _ hfirst, memRead_of_bytes _ 4 _ _ _ hsecond⟩
  exact ⟨fun hr h => memRead_of_bytes _ 4 _ _ _ (hwritten (.sc rt offset rs) rfl hr h),
    fun hr h => memRead_of_bytes _ 4 _ _ _ (hwritten (.sce rt offset rs) rfl hr h),
    fun hr h => hpair (hwritten (.scwp rt ru rs) rfl hr h), fun hr h => hpair (hwritten (.scwpe rt ru rs) rfl hr h)⟩

/-- Settles O20: the bytes written are those of the value in the byte order asked for, and no other byte is written. -/
theorem memReadOfMemWrite : Obligations.MemReadOfMemWrite := by
  intro m pa n v
  have hbyte (be : Bool) (j : Nat) (hj : j < (dataBytes be n v).length) :
      (memWrite be m pa n v).read (pa + j) = some (dataBytes be n v)[j] := read_writeBytes_inside m pa _ j hj
  refine ⟨fun be => ⟨memRead_of_bytes be n v _ pa (hbyte be), fun a ha => ?_⟩, fun i hi => ⟨?_, ?_⟩⟩
  · exact read_writeBytes_outside m pa _ a (by rwa [dataBytes_length])
  · rw [hbyte true i (by rwa [dataBytes_length]), dataBytes_getElem, if_pos rfl]
  · rw [hbyte false i (by rwa [dataBytes_length]), dataBytes_getElem, if_neg Bool.false_ne_true]

/-- Settles O23: the tests read configuration, mode, pc and the address alone, and a store-conditional that fails commits like
any other. -/
theorem checksIgnoreTheLink : Obligations.ChecksIgnoreTheLink := by
  intro i s llb link broken mixed mayFail span s'
  refine ⟨fun hcop0 => ?_, fun t h hzero hrt => ?_⟩
  · have htarget : scTarget i.kind (addressOf i s') s' = scTarget i.kind (addressOf i s) s := by
      rw [addressOf_congr (s := s) (s' := s') rfl, scTarget_congr (s := s) (s' := s') rfl rfl rfl hcop0]
    obtain ⟨hnext, hfault, hrefused⟩ := exec_congr_of_scTarget htarget
    refine ⟨hfault, hrefused, fun t h => ?_⟩
    obtain ⟨pa, cca, -, h'⟩ := hnext t h
    exact ⟨_, h'⟩
  · obtain ⟨pa, cca, -, hc⟩ := completed_of_exec h
    exact ⟨hc.kept (failure_of_result_zero hc hrt hzero), hc.llb, hc.pc⟩

/-- Settles O24: neither the address nor the tests nor the commit look at a register the instruction does not name. -/
theorem otherRegistersIrrelevant : Obligations.OtherRegistersIrrelevant := by
  intro i s r v hr hcop0
  have htarget : scTarget i.kind (addressOf i (s.writeReg r v)) (s.writeReg r v) = scTarget i.kind (addressOf i s) s := by
    obtain ⟨-, haddress, -⟩ := operands_writeReg hr s v
    rw [haddress, scTarget_congr (s := s) (s' := s.writeReg r v) rfl rfl rfl hcop0]
  obtain ⟨hnext, hfault, hrefused⟩ := exec_congr_of_scTarget htarget
  refine ⟨fun t h => ?_, hfault, hrefused⟩
  obtain ⟨pa, cca, rfl, h'⟩ := hnext t h
  rw [h', commitOf_writeReg hr]

/-- Settles O25: the tests do not read memory, and the commit does nothing with it but write it. -/
theorem memoryContentsAffectOnlyMemory : Obligations.MemoryContentsAffectOnlyMemory := by
  intro i s m hcop0
  have htarget : scTarget i.kind (addressOf i (s.withMem m)) (s.withMem m) = scTarget i.kind (addressOf i s) s := by
    rw [addressOf_congr (s := s) (s' := s.withMem m) rfl, scTarget_congr (s := s) (s' := s.withMem m) rfl rfl rfl hcop0]
  obtain ⟨hnext, hfault, hrefused⟩ := exec_congr_of_scTarget htarget
  refine ⟨fun t h => ?_, hfault, hrefused⟩
  obtain ⟨pa, cca, rfl, h'⟩ := hnext t h
  exact ⟨_, h'.trans (congrArg Host.Outcome.next (commitOf_withMem i pa cca s m))⟩

/-- Settles O26: an instruction writes the register file by one `writeReg`, to `rt`. -/
theorem registerZeroDiscards : Obligations.RegisterZeroDiscards := by
  refine ⟨fun s => ⟨s.readReg_zero, s.writeReg_zero⟩, fun i s t hrt h => ?_⟩
  obtain ⟨success, hgpr⟩ := gpr_of_exec h
  rw [hgpr, hrt, State.writeReg_zero]

end Sys2Proof.Proofs

/-! # Proofs of the family other: the order of the tests, and the user's view -/

namespace Sys2Proof.Machine

/-! Where each test of R100 ends an instruction. -/

/-- A form that exists, without a usable coprocessor 0 (R163). -/
theorem scAvailable_of_cop0 {k : ScKind} {s : State} (hpairs : ¬ (k.nbytes = 8 ∧ s.cfg.xnp = true))
    (heva : ¬ (k.isEva = true ∧ s.cfg.eva = false)) (hcop0 : k.isEva = true ∧ cop0Usable s = false) :
    scAvailable k s = .error (raise (.coprocessorUnusable 0) s) := by
  obtain ⟨hk, hu⟩ := hcop0
  have hxnp : (k.nbytes == 8 && s.cfg.xnp) = false := by simpa using hpairs
  have heva : s.cfg.eva = true := by simpa [hk] using heva
  simp [scAvailable, hxnp, hk, heva, hu]

/-- For an available form with an aligned address, translation may raise (R164 to R167). -/
theorem scTarget_of_raises {k : ScKind} {va : Word} {s : State} {e : TransExc} (ha : scAvailable k s = .ok ())
    (hm : va.toNat % k.nbytes = 0) (ht : translate s.cfg va k.isEva s.mode = .raises e) :
    scTarget k va s = .error (raise (transException e va) s) := by
  simp [scTarget, ha, (misaligned_eq_false_iff k va).mpr hm, ht]

/-- The test of the uncached attribute passes (R65). -/
theorem uncachedTest_eq_false {cca : Cca} {uls : Bool} (h : ¬ ((cca = 2#3 ∨ cca = 7#3) ∧ uls = false)) :
    (ccaUncached cca && !uls) = false := by
  rw [← ccaUncached_iff] at h
  simpa using h

section Access

variable {k : ScKind} {va : Word} {pa : Nat} {cca : Cca} {s : State}

/-- An access beyond the physical space (log 13). -/
theorem scAccess_of_beyond (h : 2 ^ s.cfg.paBits < pa + k.nbytes) :
    scAccess k va pa cca s = .error (.fault (.noSuchPhysicalAddress pa k.nbytes)) := by
  simp [scAccess, physExists, Nat.not_le.mpr h]

/-- A watched access (R169). -/
theorem scAccess_of_watch (hx : pa + k.nbytes ≤ 2 ^ s.cfg.paBits) (hc : ¬ ((cca = 2#3 ∨ cca = 7#3) ∧ s.cfg.uls = false))
    (hw : watchMatch s.cfg va k.nbytes = true) : scAccess k va pa cca s = .error (raise .watch s) := by
  simp [scAccess, physExists, hx, uncachedTest_eq_false hc, hw]

/-- An access with a bus error (R168). -/
theorem scAccess_of_busError (hx : pa + k.nbytes ≤ 2 ^ s.cfg.paBits)
    (hc : ¬ ((cca = 2#3 ∨ cca = 7#3) ∧ s.cfg.uls = false)) (hw : watchMatch s.cfg va k.nbytes = false)
    (hb : busErrorAt s.cfg pa cca k.nbytes = true) : scAccess k va pa cca s = .error (raise .busError s) := by
  simp [scAccess, physExists, hx, uncachedTest_eq_false hc, hw, hb]

/-- Any other access is made. -/
theorem scAccess_of_passed (hx : pa + k.nbytes ≤ 2 ^ s.cfg.paBits)
    (hc : ¬ ((cca = 2#3 ∨ cca = 7#3) ∧ s.cfg.uls = false)) (hw : watchMatch s.cfg va k.nbytes = false)
    (hb : busErrorAt s.cfg pa cca k.nbytes = false) : scAccess k va pa cca s = .ok (pa, cca) :=
  (scAccess_ok_iff ..).mpr ⟨rfl, hx, fun hu => by simpa [hu] using hc, hw, hb⟩

end Access

/-- The EVA forms are SCE and SCWPE (R81 to R84). -/
theorem sce_or_scwpe_of_isEva {k : ScKind} (h : k.isEva = true) : k = .sce ∨ k = .scwpe := by
  cases k with
  | sc => cases h
  | sce => exact .inl rfl
  | scwp => cases h
  | scwpe => exact .inr rfl

/-- The pair forms are SCWP and SCWPE (R81 to R84). -/
theorem scwp_or_scwpe_of_nbytes {k : ScKind} (h : k.nbytes = 8) : k = .scwp ∨ k = .scwpe := by
  cases k with
  | sc => cases h
  | sce => cases h
  | scwp => exact .inl rfl
  | scwpe => exact .inr rfl

/-- The exceptions the page gives an instruction, with what each records (R160 to R169, R172). -/
def MayRaise (i : Instr) (s : State) (x : Exception) : Prop :=
  (x = .reservedInstruction → i.kind ≠ .sc ∧ (i.kind = .sce → s.cfg.eva = false)) ∧
  (∀ u, x = .coprocessorUnusable u → u = 0 ∧ (i.kind = .sce ∨ i.kind = .scwpe)) ∧
  (∀ a, x = .addressErrorStore a ∨ x = .tlbRefill a ∨ x = .tlbInvalid a ∨ x = .tlbModified a → a = Safety.addressOf i s)

/-- Reserved Instruction, of the forms with a feature that may be absent (R161, R162). -/
theorem mayRaise_reservedInstruction {i : Instr} {s : State} (hsc : i.kind ≠ .sc) (hsce : i.kind = .sce → s.cfg.eva = false) :
    MayRaise i s .reservedInstruction := ⟨fun _ => ⟨hsc, hsce⟩, nofun, nofun⟩

/-- Coprocessor Unusable, of the EVA forms (R163). -/
theorem mayRaise_coprocessorUnusable {i : Instr} {s : State} (h : i.kind.isEva = true) :
    MayRaise i s (.coprocessorUnusable 0) :=
  ⟨nofun, fun u hu => ⟨by cases hu; rfl, sce_or_scwpe_of_isEva h⟩, nofun⟩

/-- The exceptions that record an address record the effective one (R164 to R167). -/
theorem mayRaise_of_address {i : Instr} {s : State} {x : Exception} (e : TransExc)
    (hx : x = transException e (Safety.addressOf i s)) : MayRaise i s x := by
  subst hx
  cases e <;> exact ⟨nofun, nofun, by simp [transException]⟩

/-- Watch and Bus Error record nothing (R168, R169). -/
theorem mayRaise_of_access {i : Instr} {s : State} {x : Exception} (hx : x = .watch ∨ x = .busError) : MayRaise i s x := by
  rcases hx with rfl | rfl <;> exact ⟨nofun, nofun, by simp⟩

/-- The tests of an EVA form whose feature is there and usable are those of a plain form of its size in user mode
(R63, R178, R179). -/
theorem reaches_eva_iff {k k' : ScKind} {s : State} (hk : k.isEva = true) (hk' : k'.isEva = false)
    (hn : k'.nbytes = k.nbytes) (heva : s.cfg.eva = true) (hcop0 : cop0Usable s = true) (va : Word) (pa : Nat) (cca : Cca) :
    Safety.Reaches k s va pa cca ↔ Safety.Reaches k' { s with mode := .user } va pa cca := by
  have ht : translate s.cfg va k.isEva s.mode = translate s.cfg va k'.isEva .user := by rw [hk, hk']; rfl
  have hplain : ¬ k'.isEva = true := by simp [hk']
  constructor
  · rintro ⟨hpairs, -, -, haligned, hmapped, hx, hc, hw, hb⟩
    rw [ht] at hmapped
    rw [← hn] at hpairs haligned hx hw hb
    exact ⟨hpairs, fun h => absurd h hplain, fun h => absurd h hplain, haligned, hmapped, hx, hc, hw, hb⟩
  · rintro ⟨hpairs, -, -, haligned, hmapped, hx, hc, hw, hb⟩
    rw [← ht] at hmapped
    rw [hn] at hpairs haligned hx hw hb
    exact ⟨hpairs, fun _ => heva, fun _ => hcop0, haligned, hmapped, hx, hc, hw, hb⟩

end Sys2Proof.Machine

namespace Sys2Proof.Proofs

open Sys2Proof.Machine Sys2Proof.Safety

/-- Settles O32: the tests of R100 in their order, each with the outcome of its failing, and last the commit. -/
theorem exceptionPriority : Obligations.ExceptionPriority := by
  intro i s
  split
  case isTrue hpairs => exact exec_of_absent (.inl hpairs)
  case isFalse hpairs =>
  split
  case isTrue heva => exact exec_of_absent (.inr heva)
  case isFalse heva =>
  split
  case isTrue hcop0 => exact exec_of_error (scTarget_of_unavailable (scAvailable_of_cop0 hpairs heva hcop0))
  case isFalse hcop0 =>
  have ha : scAvailable i.kind s = .ok () :=
    scAvailable_of_form (by simpa using hpairs) fun hk => by simpa [hk] using And.intro heva hcop0
  split
  case isTrue hm => exact exec_of_error (scTarget_of_misaligned ha hm)
  case isFalse hm =>
  have hm := not_not.mp hm
  split
  case h_1 ht => exact exec_of_error (scTarget_of_raises ha hm ht)
  case h_2 ht => exact exec_of_error (scTarget_of_raises ha hm ht)
  case h_3 ht => exact exec_of_error (scTarget_of_raises ha hm ht)
  case h_4 ht => exact exec_of_error (scTarget_of_raises ha hm ht)
  case h_5 pa cca ht =>
  have haccess := scTarget_of_mapped ha hm ht
  split
  case isTrue hx => exact exec_of_error (haccess.trans (scAccess_of_beyond hx))
  case isFalse hx =>
  have hx := Nat.not_lt.mp hx
  split
  case isTrue hc => exact exec_of_error (haccess.trans (scAccess_uncached_without_uls hx hc.1 hc.2))
  case isFalse hc =>
  split
  case isTrue hw => exact exec_of_error (haccess.trans (scAccess_of_watch hx hc hw))
  case isFalse hw =>
  have hw := eq_false_of_ne_true hw
  split
  case isTrue hb => exact exec_of_error (haccess.trans (scAccess_of_busError hx hc hw hb))
  case isFalse hb =>
  have hr := (scTarget_ok_iff ..).mp (haccess.trans (scAccess_of_passed hx hc hw (eq_false_of_ne_true hb)))
  exact ⟨_, exec_eq_commitOf hr⟩

/-- Settles O33: of the outcomes in the order of the tests, those that are faults, each of the forms whose test it is. -/
theorem exceptionsOfEachForm : Obligations.ExceptionsOfEachForm := by
  intro i s f hf
  have h := exceptionPriority i s
  rw [hf] at h
  split at h
  case isTrue hpairs =>
    cases h
    have hpair := scwp_or_scwpe_of_nbytes hpairs.1
    refine .inl ⟨_, rfl, mayRaise_reservedInstruction ?_ ?_⟩ <;> rcases hpair with hk | hk <;> simp [hk]
  case isFalse =>
  split at h
  case isTrue heva =>
    cases h
    exact .inl ⟨_, rfl, mayRaise_reservedInstruction (fun hk => by simp [hk, ScKind.isEva] at heva) fun _ => heva.2⟩
  case isFalse =>
  split at h
  case isTrue hcop0 => cases h; exact .inl ⟨_, rfl, mayRaise_coprocessorUnusable hcop0.1⟩
  case isFalse =>
  split at h
  case isTrue => cases h; exact .inl ⟨_, rfl, mayRaise_of_address .addressError rfl⟩
  case isFalse =>
  split at h
  case h_1 => cases h; exact .inl ⟨_, rfl, mayRaise_of_address .addressError rfl⟩
  case h_2 => cases h; exact .inl ⟨_, rfl, mayRaise_of_address .tlbRefill rfl⟩
  case h_3 => cases h; exact .inl ⟨_, rfl, mayRaise_of_address .tlbInvalid rfl⟩
  case h_4 => cases h; exact .inl ⟨_, rfl, mayRaise_of_address .tlbModified rfl⟩
  case h_5 pa cca _ =>
  split at h
  case isTrue => cases h; exact .inr ⟨pa, rfl⟩
  case isFalse =>
  split at h
  case isTrue => cases h
  case isFalse =>
  split at h
  case isTrue => cases h; exact .inl ⟨_, rfl, mayRaise_of_access (.inl rfl)⟩
  case isFalse =>
  split at h
  case isTrue => cases h; exact .inl ⟨_, rfl, mayRaise_of_access (.inr rfl)⟩
  case isFalse =>
  obtain ⟨t, ht⟩ := h
  cases ht

/-- Settles O29: the rule of the mode, and the oracle, as `Cop0Usable` reads them. -/
theorem cop0UsableOfTheState : Obligations.Cop0UsableOfTheState := by
  have hmode (s : State) (kernel user : Bool) (h : s.cfg.cop0 = .byMode kernel user) :
      cop0Usable s = if s.mode = .kernel then kernel else user := by
    rw [cop0Usable, h]
    cases s.mode <;> rfl
  refine ⟨fun s kernel user h => ⟨hmode s kernel user h, fun k s' => sameCop0_of_byMode h⟩, fun s h => ?_, fun s n h => ?_,
    fun s s' => cop0Usable_congr⟩
  · rw [hmode s true false (by rw [h]; rfl)]
    simp
  · rw [cop0Usable, h]

/-- Settles O34: translation for an EVA form looks at the user's view, and so do all tests of an EVA form that may be used. -/
theorem evaTranslatesAsUser : Obligations.EvaTranslatesAsUser :=
  ⟨fun _ _ _ => rfl, fun _ va pa cca heva hcop0 =>
    ⟨reaches_eva_iff (k := .sce) (k' := .sc) rfl rfl rfl heva hcop0 va pa cca,
      reaches_eva_iff (k := .scwpe) (k' := .scwp) rfl rfl rfl heva hcop0 va pa cca⟩⟩

end Sys2Proof.Proofs

/-! # Proofs of the family other: blocks, events of a sequence, and what follows them -/

namespace Sys2Proof.Machine

/-! An access while a link is held. -/

/-- What an access, `own` or another agent's, does to a sequence in which link `l` is held, and to memory (R123, R129, R131,
R141, R144). -/
structure AccessInSequence (own : Bool) (a : Access) (l : Link) (s t : State) : Prop where
  link : t.link = some l
  llb : t.llb = s.llb
  mem : t.mem = Memory.writeCells s.mem (Access.cells a)
  broken : t.linkBroken = (s.linkBroken || accessBreaks s.cfg own l a)
  mixed : t.linkMixed = (s.linkMixed || accessMixes s.cfg l a)
  mayFail : t.mayFail = (s.mayFail || accessMayFail s.cfg own l a)

/-- The turn of an access by this processor. -/
theorem step_own_access {s t : State} {l : Link} {a : Access} {v : Word} {len : Nat} {ts : List Turn}
    (hl : s.link = some l) (hs : s.schedule = .foreign v len (.access a) :: ts) (h : step s = .next t) :
    AccessInSequence true a l s t := by
  rw [step_foreign hs] at h
  obtain ⟨-, rfl⟩ := accessStep_next h
  exact ⟨by simpa using hl, by simp, by simp, applyAccess_linkBroken true a _ l hl, applyAccess_linkMixed true a _ l hl,
    applyAccess_mayFail true a _ l hl⟩

/-- The turn of an access by another agent. -/
theorem step_environment_access {s t : State} {l : Link} {a : Access} {ts : List Turn} (hl : s.link = some l)
    (hs : s.schedule = .environment (.access a) :: ts) (h : step s = .next t) : AccessInSequence false a l s t := by
  rw [step_environment hs] at h
  obtain ⟨-, rfl⟩ := accessStep_next h
  exact ⟨by simpa using hl, by simp, by simp, applyAccess_linkBroken false a _ l hl, applyAccess_linkMixed false a _ l hl,
    applyAccess_mayFail false a _ l hl⟩

/-- A linked byte is in the block (R124). -/
theorem inBlock_of_inLinkedData {c : Config} {l : Link} {a : Nat} (h : inLinkedData l a = true) : inBlock c l a = true := by
  simp [inBlock, h]

/-- A coherent store into the block breaks the link (R123). -/
theorem accessBreaks_coherentStore {c : Config} {own : Bool} {l : Link} {cca : Cca} {cells : List Host.Cell}
    (h : ∃ x ∈ cells, inBlock c l x.1 = true) : accessBreaks c own l (.coherentStore cca cells) = true := by
  simpa [accessBreaks] using h

/-- A non-coherent store into the linked data breaks the link if it is this processor's and both it and the sequence are
uncached (R144). -/
theorem accessBreaks_nonCoherentStore {c : Config} {own : Bool} {l : Link} {cca : Cca} {cells : List Host.Cell}
    (h : ∃ x ∈ cells, inLinkedData l x.1 = true) :
    accessBreaks c own l (.nonCoherentStore cca cells) = (own && ccaUncached l.cca && ccaUncached cca) := by
  have hany : cells.any (fun x => inLinkedData l x.1) = true := by simpa using h
  rw [accessBreaks, hany, Bool.and_true]

/-- In a cached sequence no non-coherent store breaks the link (R131). -/
theorem accessBreaks_nonCoherentStore_of_cached {c : Config} {own : Bool} {l : Link} {cca : Cca} {cells : List Host.Cell}
    (h : ccaUncached l.cca = false) : accessBreaks c own l (.nonCoherentStore cca cells) = false := by
  simp [accessBreaks, h]

/-- An access with no byte in the block breaks nothing (R123, R144). -/
theorem accessBreaks_of_outside {c : Config} {own : Bool} {l : Link} {a : Access}
    (h : ∀ p ∈ Access.addrs a, inBlock c l p = false) : accessBreaks c own l a = false := by
  cases a with
  | load cca addrs => rfl
  | coherentStore cca cells => simpa [accessBreaks, Access.addrs] using h
  | nonCoherentStore cca cells =>
    have hdata : cells.any (fun x => inLinkedData l x.1) = false := by
      rw [List.any_eq_false]
      intro x hx hin
      have hout := h x.1 (List.mem_map_of_mem hx)
      rw [inBlock_of_inLinkedData hin] at hout
      cases hout
    rw [accessBreaks, hdata, Bool.and_false]

/-- An access with no byte in the block mixes nothing (R141). -/
theorem accessMixes_of_outside {c : Config} {l : Link} {a : Access}
    (h : ∀ p ∈ Access.addrs a, inBlock c l p = false) : accessMixes c l a = false := by
  have hany : (Access.addrs a).any (fun p => inBlock c l p) = false := by simpa using h
  rw [accessMixes, hany, Bool.and_false]

/-- In an uncached sequence an access to the block with another attribute mixes it (R141). -/
theorem accessMixes_of_attr {c : Config} {l : Link} {a : Access} (hl : ccaUncached l.cca = true)
    (ha : Access.attr a ≠ l.cca) (hin : ∃ p ∈ Access.addrs a, inBlock c l p = true) : accessMixes c l a = true := by
  have hany : (Access.addrs a).any (fun p => inBlock c l p) = true := by simpa using hin
  rw [accessMixes, hl, hany, bne_iff_ne.mpr ha]
  rfl

/-- An access of this processor with a byte outside the block is a may-fail event (R129). -/
theorem accessMayFail_of_outside {c : Config} {l : Link} {a : Access}
    (h : ∃ p ∈ Access.addrs a, inBlock c l p = false) : accessMayFail c true l a = true := by
  have hany : (Access.addrs a).any (fun p => !inBlock c l p) = true := by simpa using h
  unfold accessMayFail
  rw [hany]
  rfl

/-- A non-coherent store into the block is a may-fail event if it is this processor's or the system a multi-processor one
(R131). -/
theorem accessMayFail_nonCoherentStore {c : Config} {own : Bool} {l : Link} {cca : Cca} {cells : List Host.Cell}
    (how : own = true ∨ c.multiprocessor = true) (h : ∃ x ∈ cells, inBlock c l x.1 = true) :
    accessMayFail c own l (.nonCoherentStore cca cells) = true := by
  have hany : cells.any (fun x => inBlock c l x.1) = true := by simpa using h
  have how : (own || c.multiprocessor) = true := by simpa using how
  simp only [accessMayFail, hany, how, Bool.and_self, Bool.or_true]

/-! The other events of a sequence. -/

/-- In a sequence the event is noted (R127, R130, R133). -/
theorem noteMayFail_of_link {s : State} {l : Link} (h : s.link = some l) : noteMayFail s = { s with mayFail := true } := by
  simp [noteMayFail, State.raiseFlags, h]

/-- Outside a sequence it is not. -/
theorem noteMayFail_of_none {s : State} (h : s.link = none) : noteMayFail s = s := by
  rw [noteMayFail, h, Option.isSome_none]
  simp only [State.raiseFlags, Bool.or_false]

/-- Outside a sequence no span is kept (R132). -/
theorem noteInstruction_of_none {v : Word} {len : Nat} {s : State} (h : s.link = none) : noteInstruction v len s = s := by
  rw [noteInstruction, h]
  rfl

/-- PREF, CACHE and an exception are noted and join the sequence (R127, R130, R133). -/
theorem step_mayFailEvent {s : State} {v : Word} {len : Nat} {e : ForeignEvent} {ts : List Turn}
    (hs : s.schedule = .foreign v len e :: ts) (he : e = .pref ∨ e = .cacheOp ∨ e = .exception) :
    step s = .next (noteMayFail (noteInstruction v len (s.withSchedule ts))) := by
  rw [step_foreign hs]
  rcases he with rfl | rfl | rfl <;> rfl

/-- What a load-linked instruction, `len` bytes at `v`, leaves: an intact link, a span of its own, and what it does not touch
(R132, R151). -/
structure AfterLoadLinked (v : Word) (len : Nat) (l : Link) (s t : State) : Prop where
  link : t.link = some l
  llb : t.llb = true
  unbroken : t.linkBroken = false
  unmixed : t.linkMixed = false
  mayFail : t.mayFail = false
  span : t.span = some (spanWith none v len)
  cfg : t.cfg = s.cfg
  mode : t.mode = s.mode
  gpr : t.gpr = s.gpr
  pc : t.pc = s.pc
  draws : t.draws = s.draws

section LoadLinked

variable {s : State} {v va : Word} {len pa : Nat} {k : LinkKind} {cca : Cca} {ts : List Turn}

/-- Its turn leaves that if its data exist. -/
theorem step_loadLinked_of_exists (hs : s.schedule = .foreign v len (.loadLinked k va pa cca) :: ts)
    (hx : pa + LinkKind.nbytes k ≤ 2 ^ s.cfg.paBits) :
    ∃ t, step s = .next t ∧ AfterLoadLinked v len ⟨k, va, pa, cca, LinkKind.nbytes k⟩ s t := by
  have hexists : physExists (s.withSchedule ts).cfg pa (LinkKind.nbytes k) = true := decide_eq_true hx
  have hstep := step_foreign hs
  rw [foreignStep, loadLinkedStep, if_pos hexists] at hstep
  exact ⟨_, hstep, rfl, rfl, rfl, rfl, rfl, rfl, rfl, rfl, rfl, rfl, rfl⟩

/-- Its turn answers a next state only so. -/
theorem afterLoadLinked_of_step {t : State} (hs : s.schedule = .foreign v len (.loadLinked k va pa cca) :: ts)
    (h : step s = .next t) : AfterLoadLinked v len ⟨k, va, pa, cca, LinkKind.nbytes k⟩ s t := by
  rw [step_foreign hs, foreignStep, loadLinkedStep] at h
  split at h <;> cases h
  exact ⟨rfl, rfl, rfl, rfl, rfl, rfl, rfl, rfl, rfl, rfl, rfl⟩

end LoadLinked

/-- After an ERET the link is broken (R125). -/
theorem step_eret {s t : State} {v : Word} {len : Nat} {ts : List Turn} (hs : s.schedule = .foreign v len .eret :: ts)
    (h : step s = .next t) : t.schedule = ts ∧ t.linkBroken = true := by
  rw [step_foreign hs] at h
  cases h
  exact ⟨rfl, Bool.or_true _⟩

/-- With no link the result is unpredictable (R136). -/
theorem not_predictable_of_no_link {k : ScKind} {s : State} (h : s.link = none) (va : Word) (pa : Nat) (cca : Cca) :
    ¬ Safety.Predictable k s va pa cca := by
  rintro ⟨⟨l, hl, -⟩, -, -, -⟩
  simp [h] at hl

/-- In a mixed sequence the result is unpredictable (R141). -/
theorem not_predictable_of_mixed {k : ScKind} {s : State} (h : s.linkMixed = true) (va : Word) (pa : Nat) (cca : Cca) :
    ¬ Safety.Predictable k s va pa cca := by
  rintro ⟨-, -, -, hunmixed⟩
  simp [h] at hunmixed

/-- The bytes an instruction stores depend on registers and byte order alone (R53, R58). -/
theorem bytesOf_congr {s s' : State} (hc : s'.cfg = s.cfg) (hg : s'.gpr = s.gpr) (i : Instr) :
    Safety.bytesOf i s' = Safety.bytesOf i s := by
  cases i <;> simp only [Safety.bytesOf, wordDatum, pairDatum, State.readReg_congr hg, hc]

/-- The span of a load-linked instruction and a later store-conditional lies in a 2048-byte region if the two do (R132). -/
theorem spanWith_short {v pc : Word} {len : Nat} (hlow : v.toNat + len ≤ pc.toNat) (hhigh : pc.toNat + 4 ≤ v.toNat + 2048) :
    (spanWith (some (spanWith none v len)) pc 4).last < (spanWith (some (spanWith none v len)) pc 4).first + 2048 := by
  simp only [spanWith]
  omega

/-! The block of linked data. -/

/-- A block that meets R8 contains the linked data and has a size within the bounds. -/
theorem blockWf_iff (c : Config) (l : Link) :
    blockWf c l = true ↔ rangesRise (blockOf c l.pa) = true ∧ 4 ≤ ((blockOf c l.pa).map PhysRange.size).sum ∧
      ((blockOf c l.pa).map PhysRange.size).sum ≤ c.minPageSize ∧
      ∀ j < l.nbytes, ∃ r ∈ blockOf c l.pa, r.first ≤ l.pa + j ∧ l.pa + j ≤ r.last := by
  simp [blockWf, PhysRange.holds, and_assoc]

/-- An address counts as in the block if it is linked or `BlockOf` holds it (R124; log 31). -/
theorem inBlock_iff (c : Config) (l : Link) (a : Nat) :
    inBlock c l a = true ↔ (l.pa ≤ a ∧ a < l.pa + l.nbytes) ∨ ∃ r ∈ blockOf c l.pa, r.first ≤ a ∧ a ≤ r.last := by
  simp [inBlock, inLinkedData, PhysRange.holds]

/-- With no entries every block is the regular one (log 31). -/
theorem blockOf_of_no_entries {c : Config} (h : c.blocks = []) (pa : Nat) : blockOf c pa = [regularBlock c pa] := by
  simp [blockOf, h]

/-- Linked data are 4 or 8 bytes (R32). -/
theorem linkKind_nbytes (k : LinkKind) : LinkKind.nbytes k = 4 ∨ LinkKind.nbytes k = 8 := by
  cases k <;> decide

/-- The regular block of an aligned word or pair: it contains the data and has 4 bytes at least and the block size at most.
At the bottom of memory a shifted block is cut off at address 0. -/
theorem regularBlock_bounds {c : Config} {pa n : Nat} (hpos : 0 < c.blockSize) (hsize : c.blockSize % 8 = 0)
    (hshift : c.blockShift % 8 = 0) (hn : n = 4 ∨ n = 8) (haligned : pa % n = 0) :
    (regularBlock c pa).first ≤ pa ∧ pa + n ≤ (regularBlock c pa).last + 1 ∧
      (regularBlock c pa).first + 4 ≤ (regularBlock c pa).last + 1 ∧
      (regularBlock c pa).last + 1 ≤ (regularBlock c pa).first + c.blockSize := by
  have hle : (pa + c.blockShift) / c.blockSize * c.blockSize ≤ pa + c.blockShift := Nat.div_mul_le_self ..
  have hlt : pa + c.blockShift < (pa + c.blockShift) / c.blockSize * c.blockSize + c.blockSize := Nat.lt_div_mul_add hpos
  have hstart : (pa + c.blockShift) / c.blockSize * c.blockSize % 8 = 0 := by rw [Nat.mul_mod, hsize, Nat.mul_zero, Nat.zero_mod]
  simp only [regularBlock]
  generalize (pa + c.blockShift) / c.blockSize * c.blockSize = start at *
  rcases hn with rfl | rfl <;> omega

end Sys2Proof.Machine

namespace Sys2Proof.Proofs

open Sys2Proof.Machine Sys2Proof.Safety

/-- Settles O22: the first leaves no link, the turns between set none, and with no link the result is drawn. -/
theorem secondStoreConditionalDraws : Obligations.SecondStoreConditionalDraws := by
  intro i j s t t' ts rest pa cca h hs hts hrun hr
  obtain ⟨hlink, -⟩ := link_of_exec h
  obtain ⟨-, hkept, -, -⟩ := between_run ts rest t t' hs hts hrun
  exact exec_of_not_predictable hr (not_predictable_of_no_link (hkept.trans hlink) _ _ _)

/-- Settles O36: the store is an access that breaks the link, and a broken link forces failure. -/
theorem coherentStoreIntoBlockBreaks : Obligations.CoherentStoreIntoBlockBreaks := by
  intro s t l cca cells ts v len hl hin hs h
  obtain ⟨own, ha⟩ : ∃ own, AccessInSequence own (.coherentStore cca cells) l s t := by
    rcases hs with hs | hs
    · exact ⟨false, step_environment_access hl hs h⟩
    · exact ⟨true, step_own_access hl hs h⟩
  have hbroken : t.linkBroken = true := by rw [ha.broken, accessBreaks_coherentStore hin, Bool.or_true]
  refine ⟨⟨ha.mem, ha.link, hbroken⟩, fun i pa pcca hr hp => ?_⟩
  obtain ⟨u, hu, hc, -⟩ := brokenLinkForcesFailure i t pa pcca hr hp (.inr hbroken)
  exact ⟨u, hu, hc⟩

/-- Settles O37: the block that R8 describes contains the linked data, so that the test of the linked data adds nothing. -/
theorem blockBounds : Obligations.BlockBounds := by
  intro c l hblocks hn haligned hexists hpairs
  obtain ⟨-, hmin, hmax, hcovers⟩ := (blockWf_iff c l).mp (hblocks l hn haligned hexists hpairs)
  refine ⟨fun a => ?_, hcovers, hmin, hmax⟩
  rw [inBlock_iff, or_iff_right_iff_imp]
  rintro ⟨hlow, hhigh⟩
  obtain ⟨j, rfl⟩ := Nat.exists_eq_add_of_le hlow
  exact hcovers j (by omega)

/-- Settles O38: the one range of such a block has the bounds, and the reset configuration is of that family. -/
theorem regularBlocksMeetTheBounds : Obligations.RegularBlocksMeetTheBounds := by
  have hregular (c : Config) (hblocks : c.blocks = []) (hpos : 0 < c.blockSize) (hsize : c.blockSize % 8 = 0)
      (hshift : c.blockShift % 8 = 0) (hpage : c.blockSize ≤ c.minPageSize) : BlocksWf c := by
    intro l hn haligned _ _
    have hbytes : l.nbytes = 4 ∨ l.nbytes = 8 := hn ▸ linkKind_nbytes l.kind
    obtain ⟨hfirst, hlast, hmin, hmax⟩ := regularBlock_bounds hpos hsize hshift hbytes haligned
    rw [blockWf_iff, blockOf_of_no_entries hblocks]
    simp only [rangesRise, List.all_nil, Bool.and_true, decide_eq_true_eq, List.map_cons, List.map_nil, List.sum_cons,
      List.sum_nil, PhysRange.size, List.mem_singleton, exists_eq_left]
    exact ⟨by omega, by omega, by omega, fun j hj => by omega⟩
  exact ⟨hregular, hregular _ rfl (by decide) (by decide) (by decide) (by decide)⟩

/-- Settles O41: an ERET breaks the link, and no turn between mends it. -/
theorem eretForcesFailure : Obligations.EretForcesFailure := by
  intro i s t u ts rest v len pa cca hs hts hrun hu hr hp
  obtain ⟨s', hstep, hrun'⟩ := run_succ hrun
  obtain ⟨hsched, hbroken⟩ := step_eret hs hstep
  obtain ⟨hrest, -, hkept, -⟩ := between_run ts rest s' t hsched hts hrun'
  obtain ⟨u', hu', hc, -⟩ := brokenLinkForcesFailure i t pa cca hr hp (.inr (hkept hbroken))
  cases hu'.symm.trans hu
  exact ⟨hrest, hc⟩

/-- Settles O42: a load-linked instruction clears the flag, such an access sets it, it makes the result unpredictable, and the
commit clears it. -/
theorem otherAttributeMixes : Obligations.OtherAttributeMixes := by
  refine ⟨fun s t k va v len pa cca ts hs h => ?_, fun s t l a v len ts hl huncached hattr hin hs h => ?_,
    fun i s pa cca hmixed hr => ?_, fun i s t h => (link_of_exec h).2⟩
  · exact (afterLoadLinked_of_step hs h).unmixed
  · have hmixes := accessMixes_of_attr ((ccaUncached_iff l.cca).mpr huncached) hattr hin
    obtain ⟨own, ha⟩ : ∃ own, AccessInSequence own a l s t := by
      rcases hs with hs | hs
      · exact ⟨false, step_environment_access hl hs h⟩
      · exact ⟨true, step_own_access hl hs h⟩
    rw [ha.mixed, hmixes, Bool.or_true]
  · exact unpredictableResultIsDrawn i s pa cca hr (not_predictable_of_mixed hmixed _ _ _)

/-- Settles O43: whether a store of the linked data breaks an unbroken link is whether it is this processor's, uncached and in
an uncached sequence. -/
theorem ownUncachedStoreBreaks : Obligations.OwnUncachedStoreBreaks := by
  intro s t l cca cells ts v len hl hunbroken hin h
  refine ⟨fun hs => ?_, fun hs => ?_⟩
  · rw [(step_own_access hl hs h).broken, hunbroken, accessBreaks_nonCoherentStore hin, ← ccaUncached_iff, ← ccaUncached_iff]
    simp
  · rw [(step_environment_access hl hs h).broken, hunbroken, accessBreaks_nonCoherentStore hin]
    rfl

/-- Settles O44: these turns note themselves and join the sequence while there is one. -/
theorem mayFailEventsOnlyNote : Obligations.MayFailEventsOnlyNote := by
  intro s ts v len e
  refine ⟨fun l hl => ⟨fun hs he => ?_, fun hs => ?_⟩, fun hl => ⟨fun hs he => ?_, fun hs => ?_⟩⟩
  · rw [step_mayFailEvent hs he, noteInstruction_of_link (s := s.withSchedule ts) hl,
      noteMayFail_of_link (s := (s.withSchedule ts).withSpan _) hl]
    rfl
  · rw [step_environment hs, environmentStep, noteMayFail_of_link (s := s.withSchedule ts) hl]
    rfl
  · rw [step_mayFailEvent hs he, noteInstruction_of_none (s := s.withSchedule ts) hl,
      noteMayFail_of_none (s := s.withSchedule ts) hl]
    rfl
  · rw [step_environment hs, environmentStep, noteMayFail_of_none (s := s.withSchedule ts) hl]
    rfl

/-- Settles O45: a byte outside the block makes it a may-fail event, and only a byte inside could do more. -/
theorem accessOutsideTheBlockMayFail : Obligations.AccessOutsideTheBlockMayFail := by
  intro s t l a ts v len hl hs hout h
  have ha := step_own_access hl hs h
  refine ⟨?_, ha.link, ha.llb, ha.mem, fun hall => ⟨?_, ?_⟩⟩
  · rw [ha.mayFail, accessMayFail_of_outside hout, Bool.or_true]
  · rw [ha.broken, accessBreaks_of_outside hall, Bool.or_false]
  · rw [ha.mixed, accessMixes_of_outside hall, Bool.or_false]

/-- Settles O46: such a store is a may-fail event, and only an uncached sequence can break by it. -/
theorem nonCoherentStoreMayFail : Obligations.NonCoherentStoreMayFail := by
  intro s t l cca cells ts v len hl hin hs h
  obtain ⟨own, how, ha⟩ : ∃ own, (own = true ∨ s.cfg.multiprocessor = true) ∧
      AccessInSequence own (.nonCoherentStore cca cells) l s t := by
    rcases hs with hs | ⟨hs, hmulti⟩
    · exact ⟨true, .inl rfl, step_own_access hl hs h⟩
    · exact ⟨false, .inr hmulti, step_environment_access hl hs h⟩
  refine ⟨?_, ha.link, ha.llb, ha.mem, fun hcached => ?_⟩
  · rw [ha.mayFail, accessMayFail_nonCoherentStore how hin, Bool.or_true]
  · have hcached : ccaUncached l.cca = false := by
      rw [← Bool.not_eq_true, ccaUncached_iff, not_or]
      exact hcached
    rw [ha.broken, accessBreaks_nonCoherentStore_of_cached hcached, Bool.or_false]

/-- Settles O48: the load-linked instruction leaves an intact matching link and a fresh span, with which the store-conditional
meets the two cases of an intact link. -/
theorem uninterruptedSequence : Obligations.UninterruptedSequence := by
  intro i s ts v len pa cca hs hr hsync hrmw
  have hexists : pa + LinkKind.nbytes (partner i.kind) ≤ 2 ^ s.cfg.paBits := by
    rw [partner_nbytes]
    exact hr.exists_
  obtain ⟨t, hstep, ht⟩ := step_loadLinked_of_exists hs hexists
  refine ⟨t, hstep, fun hcop0 => ?_⟩
  have haddress := addressOf_congr ht.gpr i
  have hr' : Reaches i.kind t (addressOf i t) pa cca := by
    rw [haddress]
    exact reaches_congr ht.cfg ht.mode ht.pc hcop0 hr
  have hp : Predictable i.kind t (addressOf i t) pa cca := by
    rw [haddress]
    exact ⟨⟨_, ht.link, rfl, rfl, rfl, rfl⟩, by rwa [ht.cfg], by rwa [ht.cfg], ht.unmixed⟩
  obtain ⟨u, hu, hcases⟩ := intactLinkSucceedsOrDraws i t pa cca hr' hp ht.llb ht.unbroken
  rw [ht.cfg, ht.pc, ht.span, ht.draws, bytesOf_congr ht.cfg ht.gpr] at hcases
  refine ⟨u, hu, fun hap => ?_, fun hap hlow hhigh => ?_⟩
  · rw [if_neg (by simp [hap])] at hcases
    exact hcases.1
  · rw [if_pos ⟨hap, ht.mayFail, spanWith_short hlow hhigh⟩] at hcases
    exact hcases

end Sys2Proof.Proofs
